-- ==== Sys2Proof/Word.lean ====
section
/-! DEFINITION. The word types of the PIO core: 32-bit registers, 16-bit instructions, 5-bit fields. -/

namespace Sys2Proof

/-- A register of the register bank, a scratch or shift register, a FIFO word (R5, R11, R23). -/
abbrev Word := BitVec 32

/-- The significant bits of an instruction (R70). -/
abbrev InstrWord := BitVec 16

/-- One byte of the register bank, where it is laid out as bytes (R50). -/
abbrev Byte := BitVec 8

/-- A five-bit field: `ds`, a jump address, a `WAIT` index, `SET` data (R71, R73, R74, R80). -/
abbrev Five := BitVec 5

end Sys2Proof
end

