-- ==== Sys2Proof/Config.lean ====
section
/-! DEFINITION. What an implementation fixes: the fixed sizes (R5), the types of the open parameters (R6, R22, R81 to
R83), and the one free value (R94, D20). -/

namespace Sys2Proof.Config

/-- FIFO_DEPTH (R5). -/
abbrev fifoDepth : Nat := 4

/-- The highest offset a register has: IRQ1_INTS (R5, R41, R44). -/
abbrev lastOffset : Nat := 0x140

/-- Bytes of the register bank: 81 registers of four bytes (R5). -/
abbrev bankBytes : Nat := 0x144

/-- The fourteen register fields the source names (R22). -/
inductive FieldName where
  | rxEmpty | txEmpty | clkdivInt | wrapTop | jmpPin | inShiftdir | outShiftdir
  | pushThresh | pullThresh | outBase | setBase | inBase | setCount | sidesetCount
deriving DecidableEq, Repr

/-- Bit offset and width of a field (R22, R47). -/
structure FieldPos where
  offset : Nat
  width : Nat
deriving DecidableEq, Repr

/-- FIELD_LAYOUT, an open parameter: where each named field stands in its register (R6, R22, D1). -/
structure FieldLayout where
  rxEmpty : FieldPos
  txEmpty : FieldPos
  clkdivInt : FieldPos
  wrapTop : FieldPos
  jmpPin : FieldPos
  inShiftdir : FieldPos
  outShiftdir : FieldPos
  pushThresh : FieldPos
  pullThresh : FieldPos
  outBase : FieldPos
  setBase : FieldPos
  inBase : FieldPos
  setCount : FieldPos
  sidesetCount : FieldPos
deriving DecidableEq, Repr

/-- The numbers of the eight JMP conditions, w[7:5] (R81). -/
structure JmpNumbers where
  always : BitVec 3
  notX : BitVec 3
  xDec : BitVec 3
  notY : BitVec 3
  yDec : BitVec 3
  xNeY : BitVec 3
  pin : BitVec 3
  notOsre : BitVec 3
deriving DecidableEq, Repr

/-- The numbers of the four WAIT sources, w[6:5] (R82). -/
structure WaitNumbers where
  gpio : BitVec 2
  pin : BitVec 2
  irq : BitVec 2
  rsvd : BitVec 2
deriving DecidableEq, Repr

/-- The numbers of the SET destinations, w[7:5]: the four that execute and the four Reserved ones, which are named
by the numbers R83 gives them by default (R83). -/
structure SetNumbers where
  pins : BitVec 3
  x : BitVec 3
  y : BitVec 3
  rsvd3 : BitVec 3
  pindirs : BitVec 3
  rsvd5 : BitVec 3
  rsvd6 : BitVec 3
  rsvd7 : BitVec 3
deriving DecidableEq, Repr

/-- ENUM_MAP, an open parameter: the number of each JMP condition, WAIT source and SET destination (R6, R81 to R83,
D2). -/
structure EnumMap where
  jmp : JmpNumbers
  wait : WaitNumbers
  set : SetNumbers
deriving DecidableEq, Repr

/-- The open parameters of R6 but for ACTIVE_LANE, which construction takes beside them (R180). The defaults of the
reset values are the spec's own choice: DESIGN CHOICE, the source gives none (log entries 4, 5 and 7), unsafe for a
statement that names them. The defaults of the two tables stand in Machine/RegBank.lean and Decode.lean. -/
structure Params where
  layout : FieldLayout
  enums : EnumMap
  xInit : Word := 0
  yInit : Word := 0
  osrInit : Word := 0
  isrInit : Word := 0
  osrCountInit : Fin 33 := 0
  isrCountInit : Fin 33 := 0
  gpioValueInit : Word := 0
  gpioOeInit : Word := 0
deriving DecidableEq, Repr

/-- FREE VALUE. What `pending_delay` holds after a charge with SIDESET_COUNT above 5: "unspecified" (R94, R164,
D20, U6). It is a five-bit value because `pending_delay` holds 0 to 31 (R20). The argument is the number of free
values drawn before (`State.freeIdx`). DESIGN CHOICE, safe: log entry 12. -/
opaque unstatedDelay : Nat → BitVec 5

end Sys2Proof.Config
end

