-- ==== Sys2Proof/Syntax.lean ====
section
/-! DEFINITION. The instruction set: one constructor per row of spec/opcode_table.json (R1, R72). Every
constructor carries first the delay/side-set field `ds` (R71). Ignored bits (R86) are no operand. -/

namespace Sys2Proof

/-- A decoded instruction (R72). -/
inductive Instr where
  /-- JMP, condition Always (R101). -/
  | jmpAlways (ds address : Five)
  /-- JMP !X, ScratchXZero (R102). -/
  | jmpNotX (ds address : Five)
  /-- JMP X--, ScratchXNonZeroPostDecrement (R103). -/
  | jmpXDec (ds address : Five)
  /-- JMP !Y, ScratchYZero (R104). -/
  | jmpNotY (ds address : Five)
  /-- JMP Y--, ScratchYNonZeroPostDecrement (R105). -/
  | jmpYDec (ds address : Five)
  /-- JMP X!=Y, ScratchXNotEqualScratchY (R106). -/
  | jmpXNeY (ds address : Five)
  /-- JMP PIN, BranchOnInputPin (R107). -/
  | jmpPin (ds address : Five)
  /-- JMP !OSRE, OutputShiftRegisterNotEmpty (R108). -/
  | jmpNotOsre (ds address : Five)
  /-- WAIT on an absolute pin (R111). -/
  | waitGpio (ds : Five) (polarity : Bool) (index : Five)
  /-- WAIT on a pin offset by IN_BASE (R112). -/
  | waitPin (ds : Five) (polarity : Bool) (index : Five)
  /-- WAIT on an interrupt flag (R113). -/
  | waitIrq (ds : Five) (polarity : Bool) (index : Five)
  /-- WAIT with the Reserved source (R114). -/
  | waitRsvd (ds : Five) (polarity : Bool) (index : Five)
  /-- IN, raw fields (R75, R84, R141). -/
  | inBits (ds : Five) (source : BitVec 3) (bitCount : Five)
  /-- OUT, raw fields (R76, R84, R142). -/
  | outBits (ds : Five) (destination : BitVec 3) (bitCount : Five)
  /-- PUSH (R77, R120). -/
  | push (ds : Five) (ifFull block : Bool)
  /-- PULL (R77, R121). -/
  | pull (ds : Five) (ifEmpty block : Bool)
  /-- MOV, raw fields (R78, R84, R143). -/
  | mov (ds : Five) (destination : BitVec 3) (op : BitVec 2) (source : BitVec 3)
  /-- IRQ (R79, R144). -/
  | irq (ds : Five) (clear wait : Bool) (index : Five)
  /-- SET PINS (R131). -/
  | setPins (ds data : Five)
  /-- SET X (R132). -/
  | setX (ds data : Five)
  /-- SET Y (R133). -/
  | setY (ds data : Five)
  /-- SET with the Reserved destination 3 (R135). -/
  | setRsvd3 (ds data : Five)
  /-- SET PINDIRS (R134). -/
  | setPindirs (ds data : Five)
  /-- SET with the Reserved destination 5 (R135). -/
  | setRsvd5 (ds data : Five)
  /-- SET with the Reserved destination 6 (R135). -/
  | setRsvd6 (ds data : Five)
  /-- SET with the Reserved destination 7 (R135). -/
  | setRsvd7 (ds data : Five)
deriving DecidableEq, Repr

/-- The delay/side-set field every instruction has (R71). -/
def Instr.ds : Instr → Five
  | .jmpAlways ds _ | .jmpNotX ds _ | .jmpXDec ds _ | .jmpNotY ds _ => ds
  | .jmpYDec ds _ | .jmpXNeY ds _ | .jmpPin ds _ | .jmpNotOsre ds _ => ds
  | .waitGpio ds _ _ | .waitPin ds _ _ | .waitIrq ds _ _ | .waitRsvd ds _ _ => ds
  | .inBits ds _ _ | .outBits ds _ _ | .push ds _ _ | .pull ds _ _ => ds
  | .mov ds _ _ _ | .irq ds _ _ _ => ds
  | .setPins ds _ | .setX ds _ | .setY ds _ | .setPindirs ds _ => ds
  | .setRsvd3 ds _ | .setRsvd5 ds _ | .setRsvd6 ds _ | .setRsvd7 ds _ => ds

/-- The nine instruction kinds (R1, R72). -/
inductive Kind where
  | jmp | wait | inBits | outBits | push | pull | mov | irq | set
deriving DecidableEq, Repr

/-- The kind of an instruction (R72). -/
def Instr.kind : Instr → Kind
  | .jmpAlways .. | .jmpNotX .. | .jmpXDec .. | .jmpNotY .. => .jmp
  | .jmpYDec .. | .jmpXNeY .. | .jmpPin .. | .jmpNotOsre .. => .jmp
  | .waitGpio .. | .waitPin .. | .waitIrq .. | .waitRsvd .. => .wait
  | .inBits .. => .inBits
  | .outBits .. => .outBits
  | .push .. => .push
  | .pull .. => .pull
  | .mov .. => .mov
  | .irq .. => .irq
  | .setPins .. | .setX .. | .setY .. | .setPindirs .. => .set
  | .setRsvd3 .. | .setRsvd5 .. | .setRsvd6 .. | .setRsvd7 .. => .set

end Sys2Proof
end

