-- ==== Sys2Proof/Decode.lean ====
section
/-! DEFINITION. The decoder (R70 to R80, R86) and, after it, the encoder (R88), for any numbering of JMP conditions,
WAIT sources and SET destinations: ENUM_MAP is an open parameter (R6, D2). -/

namespace Sys2Proof

open Config (EnumMap JmpNumbers WaitNumbers SetNumbers)

/-- The default ENUM_MAP of R81 to R83. PRESUMED (the RP2040's; only JMP Always = 0 is the source's): log entry 3. -/
def defaultEnums : EnumMap where
  jmp := { always := 0, notX := 1, xDec := 2, notY := 3, yDec := 4, xNeY := 5, pin := 6, notOsre := 7 }
  wait := { gpio := 0, pin := 1, irq := 2, rsvd := 3 }
  set := { pins := 0, x := 1, y := 2, rsvd3 := 3, pindirs := 4, rsvd5 := 5, rsvd6 := 6, rsvd7 := 7 }

/-- JMP by its condition, w[7:5] (R73, R81). In an admitted numbering the last member has the one number left. -/
def decodeJmp (n : JmpNumbers) (condition : BitVec 3) (ds address : Five) : Instr :=
  if condition = n.always then .jmpAlways ds address
  else if condition = n.notX then .jmpNotX ds address
  else if condition = n.xDec then .jmpXDec ds address
  else if condition = n.notY then .jmpNotY ds address
  else if condition = n.yDec then .jmpYDec ds address
  else if condition = n.xNeY then .jmpXNeY ds address
  else if condition = n.pin then .jmpPin ds address
  else .jmpNotOsre ds address

/-- WAIT by its source, w[6:5] (R74, R82). -/
def decodeWait (n : WaitNumbers) (source : BitVec 2) (ds : Five) (polarity : Bool) (index : Five) : Instr :=
  if source = n.gpio then .waitGpio ds polarity index
  else if source = n.pin then .waitPin ds polarity index
  else if source = n.irq then .waitIrq ds polarity index
  else .waitRsvd ds polarity index

/-- SET by its destination, w[7:5] (R80, R83). -/
def decodeSet (n : SetNumbers) (destination : BitVec 3) (ds data : Five) : Instr :=
  if destination = n.pins then .setPins ds data
  else if destination = n.x then .setX ds data
  else if destination = n.y then .setY ds data
  else if destination = n.rsvd3 then .setRsvd3 ds data
  else if destination = n.pindirs then .setPindirs ds data
  else if destination = n.rsvd5 then .setRsvd5 ds data
  else if destination = n.rsvd6 then .setRsvd6 ds data
  else .setRsvd7 ds data

/-- The instruction in the sixteen significant bits: the kind by `opcode` = w[15:13], and w[7] telling PUSH
from PULL (R71, R72, R77). -/
def decodeInstr (m : EnumMap) (w : InstrWord) : Instr :=
  let ds : Five := w.extractLsb' 8 5
  let high : BitVec 3 := w.extractLsb' 5 3
  let low : Five := w.extractLsb' 0 5
  match (w.extractLsb' 13 3).toNat with
  | 0 => decodeJmp m.jmp high ds low
  | 1 => decodeWait m.wait (w.extractLsb' 5 2) ds (w.getLsbD 7) low
  | 2 => .inBits ds high low
  | 3 => .outBits ds high low
  | 4 => if w.getLsbD 7 then .pull ds (w.getLsbD 6) (w.getLsbD 5) else .push ds (w.getLsbD 6) (w.getLsbD 5)
  | 5 => .mov ds high (w.extractLsb' 3 2) (w.extractLsb' 0 3)
  | 6 => .irq ds (w.getLsbD 6) (w.getLsbD 5) low
  | _ => decodeSet m.set high ds low

/-- `Decode(w)` of a 32-bit instruction-memory word: bits [31:16] are ignored (R70, R72; D3,
log entry 23). Total: no word is refused (R87). -/
def decode (m : EnumMap) (w : Word) : Instr := decodeInstr m (w.setWidth 16)

/-- One instruction word from its four parts (R71). -/
def packWord (opcode : BitVec 3) (ds : Five) (low : BitVec 8) : InstrWord := opcode ++ ds ++ low

/-- The low byte `high[7:5] low[4:0]` (R73, R75, R76, R80). -/
def lowByte (high : BitVec 3) (low : Five) : BitVec 8 := high ++ low

/-- The low byte `bit7 bit6 bit5 low[4:0]` (R77, R79). -/
def flagByte (b7 b6 b5 : Bool) (low : Five) : BitVec 8 :=
  BitVec.ofBool b7 ++ BitVec.ofBool b6 ++ BitVec.ofBool b5 ++ low

/-- The low byte of WAIT: `polarity[7] source[6:5] index[4:0]` (R74). -/
def waitByte (polarity : Bool) (source : BitVec 2) (index : Five) : BitVec 8 :=
  BitVec.ofBool polarity ++ source ++ index

/-- `Encode` (R88): the significant bits, the ignored ones written 0. -/
def encode (m : EnumMap) : Instr → InstrWord
  | .jmpAlways ds address => packWord 0 ds (lowByte m.jmp.always address)
  | .jmpNotX ds address => packWord 0 ds (lowByte m.jmp.notX address)
  | .jmpXDec ds address => packWord 0 ds (lowByte m.jmp.xDec address)
  | .jmpNotY ds address => packWord 0 ds (lowByte m.jmp.notY address)
  | .jmpYDec ds address => packWord 0 ds (lowByte m.jmp.yDec address)
  | .jmpXNeY ds address => packWord 0 ds (lowByte m.jmp.xNeY address)
  | .jmpPin ds address => packWord 0 ds (lowByte m.jmp.pin address)
  | .jmpNotOsre ds address => packWord 0 ds (lowByte m.jmp.notOsre address)
  | .waitGpio ds polarity index => packWord 1 ds (waitByte polarity m.wait.gpio index)
  | .waitPin ds polarity index => packWord 1 ds (waitByte polarity m.wait.pin index)
  | .waitIrq ds polarity index => packWord 1 ds (waitByte polarity m.wait.irq index)
  | .waitRsvd ds polarity index => packWord 1 ds (waitByte polarity m.wait.rsvd index)
  | .inBits ds source bitCount => packWord 2 ds (lowByte source bitCount)
  | .outBits ds destination bitCount => packWord 3 ds (lowByte destination bitCount)
  | .push ds ifFull block => packWord 4 ds (flagByte false ifFull block 0)
  | .pull ds ifEmpty block => packWord 4 ds (flagByte true ifEmpty block 0)
  | .mov ds destination op source => packWord 5 ds (destination ++ op ++ source)
  | .irq ds clear wait index => packWord 6 ds (flagByte false clear wait index)
  | .setPins ds data => packWord 7 ds (lowByte m.set.pins data)
  | .setX ds data => packWord 7 ds (lowByte m.set.x data)
  | .setY ds data => packWord 7 ds (lowByte m.set.y data)
  | .setRsvd3 ds data => packWord 7 ds (lowByte m.set.rsvd3 data)
  | .setPindirs ds data => packWord 7 ds (lowByte m.set.pindirs data)
  | .setRsvd5 ds data => packWord 7 ds (lowByte m.set.rsvd5 data)
  | .setRsvd6 ds data => packWord 7 ds (lowByte m.set.rsvd6 data)
  | .setRsvd7 ds data => packWord 7 ds (lowByte m.set.rsvd7 data)

/-- The bits of a word that its instruction depends on: all but those R86 lists as ignored (the low five of
PUSH and PULL, bit 7 of IRQ). -/
def significantBits (w : InstrWord) : InstrWord :=
  match (w.extractLsb' 13 3).toNat with
  | 4 => 0xFFE0
  | 6 => 0xFF7F
  | _ => 0xFFFF

/-- The instruction the decoder reads from the bits `w`, numbered as spec/opcode_table.json numbers them;
the bits above `nbits` are 0, the numbering is the default one. -/
def decodeTableWord (nbits w : Nat) : Option Instr :=
  some (decode defaultEnums (BitVec.ofNat 32 (w % 2 ^ nbits)))

end Sys2Proof
end

