-- ==== Sys2Proof/Machine/RegBank.lean ====
section
/-! DEFINITION. The register bank (20_memory.md sections 1 and 2): the register map, the named fields, the
reset contents, and the byte store that holds it. -/

namespace Sys2Proof.Machine

open Config (FieldName FieldPos FieldLayout)

/-! ## The register map -/

/-- The six registers of a lane's group (R24). -/
inductive SmReg where
  | clkdiv | execctrl | shiftctrl | addr | instr | pinctrl
deriving DecidableEq, Repr

/-- The 81 registers of the bank (R41). -/
inductive Reg where
  | ctrl | fstat | fdebug | flevel
  | txf (lane : Fin 4) | rxf (lane : Fin 4)
  | irq | irqForce | inputSyncBypass | dbgPadout | dbgPadoe | dbgCfginfo
  | instrMem (i : Fin 32)
  | sm (lane : Fin 4) (r : SmReg)
  | intr | irq0Inte | irq0Intf | irq0Ints | irq1Inte | irq1Intf | irq1Ints
deriving DecidableEq, Repr

/-- A register's place in its lane's group (R42). -/
def smRegOffset : SmReg → Nat
  | .clkdiv => 0x00
  | .execctrl => 0x04
  | .shiftctrl => 0x08
  | .addr => 0x0C
  | .instr => 0x10
  | .pinctrl => 0x14

/-- Byte offset of every register (R41, R42, R43). The single offsets inside the source's ranges are
DEDUCED (R41): log entry 24. -/
def regOffset : Reg → Nat
  | .ctrl => 0x000
  | .fstat => 0x004
  | .fdebug => 0x008
  | .flevel => 0x00C
  | .txf n => 0x010 + 4 * n.val
  | .rxf n => 0x020 + 4 * n.val
  | .irq => 0x030
  | .irqForce => 0x034
  | .inputSyncBypass => 0x038
  | .dbgPadout => 0x03C
  | .dbgPadoe => 0x040
  | .dbgCfginfo => 0x044
  | .instrMem i => 0x048 + 4 * i.val
  | .sm n r => 0x0C8 + 0x18 * n.val + smRegOffset r
  | .intr => 0x128
  | .irq0Inte => 0x12C
  | .irq0Intf => 0x130
  | .irq0Ints => 0x134
  | .irq1Inte => 0x138
  | .irq1Intf => 0x13C
  | .irq1Ints => 0x140

/-! ## Named fields -/

/-- The default FIELD_LAYOUT, the positions of R22. PRESUMED, the RP2040's (D1, G1): log entry 2. -/
def defaultLayout : FieldLayout where
  rxEmpty := ⟨8, 4⟩
  txEmpty := ⟨24, 4⟩
  clkdivInt := ⟨16, 16⟩
  wrapTop := ⟨12, 5⟩
  jmpPin := ⟨24, 5⟩
  inShiftdir := ⟨18, 1⟩
  outShiftdir := ⟨19, 1⟩
  pushThresh := ⟨20, 5⟩
  pullThresh := ⟨25, 5⟩
  outBase := ⟨0, 5⟩
  setBase := ⟨5, 5⟩
  inBase := ⟨15, 5⟩
  setCount := ⟨26, 3⟩
  sidesetCount := ⟨29, 3⟩

/-- The place a layout gives a field (R22). -/
def fieldPos (l : FieldLayout) : FieldName → FieldPos
  | .rxEmpty => l.rxEmpty
  | .txEmpty => l.txEmpty
  | .clkdivInt => l.clkdivInt
  | .wrapTop => l.wrapTop
  | .jmpPin => l.jmpPin
  | .inShiftdir => l.inShiftdir
  | .outShiftdir => l.outShiftdir
  | .pushThresh => l.pushThresh
  | .pullThresh => l.pullThresh
  | .outBase => l.outBase
  | .setBase => l.setBase
  | .inBase => l.inBase
  | .setCount => l.setCount
  | .sidesetCount => l.sidesetCount

/-- The register that holds a field, in lane n's group unless it is FSTAT's (R22). -/
def fieldReg (lane : Fin 4) : FieldName → Reg
  | .rxEmpty | .txEmpty => .fstat
  | .clkdivInt => .sm lane .clkdiv
  | .wrapTop | .jmpPin => .sm lane .execctrl
  | .inShiftdir | .outShiftdir | .pushThresh | .pullThresh => .sm lane .shiftctrl
  | .outBase | .setBase | .inBase | .setCount | .sidesetCount => .sm lane .pinctrl

/-- `Field(v, F)`: an unsigned number, never sign-extended (R47). -/
def getField (v : Word) (p : FieldPos) : Nat := (v.toNat >>> p.offset) % 2 ^ p.width

/-- `SetField(v, F, n)`: n is cut to the field's width, the other bits of v are kept (R48). -/
def setField (v : Word) (p : FieldPos) (n : Nat) : Word :=
  (v &&& ~~~(BitVec.ofNat 32 ((2 ^ p.width - 1) <<< p.offset))) |||
    BitVec.ofNat 32 ((n % 2 ^ p.width) <<< p.offset)

/-! ## Reset contents -/

/-- The word a register holds after reset: the source's field values at the places of the layout, every other bit 0
(R31: with another layout the words differ and the field values do not). DESIGN CHOICE for the bits the source does
not list (D13): log entry 8. -/
def resetWord (l : FieldLayout) : Reg → Word
  | .fstat => setField (setField 0 l.txEmpty 0xF) l.rxEmpty 0xF
  | .sm _ .clkdiv => setField 0 l.clkdivInt 1
  | .sm _ .execctrl => setField 0 l.wrapTop 0x1F
  | .sm _ .shiftctrl => setField (setField 0 l.inShiftdir 1) l.outShiftdir 1
  | .sm _ .pinctrl => setField 0 l.setCount 5
  | _ => 0

/-- The register of a lane's group by its place (R42). -/
def smRegAt (place : Nat) : SmReg :=
  match place / 4 with
  | 0 => .clkdiv
  | 1 => .execctrl
  | 2 => .shiftctrl
  | 3 => .addr
  | 4 => .instr
  | _ => .pinctrl

/-- The word at a register's byte offset after reset with the default layout (R31). Only FSTAT and the lane groups are
not 0. -/
def resetWordAt (offset : Nat) : Word :=
  if offset = regOffset .fstat then resetWord defaultLayout .fstat
  else if 0x0C8 ≤ offset ∧ offset < 0x128 then resetWord defaultLayout (.sm 0 (smRegAt ((offset - 0x0C8) % 0x18)))
  else 0

/-- What an address of the bank reads as when nothing is listed for it: its reset contents with the default layout
(R31; log entry 34), laid out little-endian (R50; log entry 9). -/
def resetByte (a : Nat) : Byte := (resetWordAt (4 * (a / 4))).extractLsb' (8 * (a % 4)) 8

/-! ## The byte store -/

/-- The byte listed at an address, if one is. -/
def bankLookup : List Host.Cell → Nat → Option Byte
  | [], _ => none
  | (c, d) :: rest, a => if c = a then some d else bankLookup rest a

/-- Read one byte of the bank. -/
def bankByte (m : List Host.Cell) (a : Nat) : Byte := (bankLookup m a).getD (resetByte a)

/-- List a byte at an address, in rising order. -/
def bankList : List Host.Cell → Nat → Byte → List Host.Cell
  | [], a, b => [(a, b)]
  | (c, d) :: rest, a, b =>
    if a < c then (a, b) :: (c, d) :: rest
    else if a = c then (a, b) :: rest
    else (c, d) :: bankList rest a b

/-- List nothing at an address. -/
def bankUnlist : List Host.Cell → Nat → List Host.Cell
  | [], _ => []
  | (c, d) :: rest, a => if c = a then rest else (c, d) :: bankUnlist rest a

/-- Write one byte of the bank, keeping the canonical form. -/
def bankSetByte (m : List Host.Cell) (a : Nat) (b : Byte) : List Host.Cell :=
  if b = resetByte a then bankUnlist m a else bankList m a b

/-- The 32-bit register at a byte offset (R44); little-endian bytes (R50). -/
def bankWord (m : List Host.Cell) (a : Nat) : Word :=
  bankByte m (a + 3) ++ bankByte m (a + 2) ++ bankByte m (a + 1) ++ bankByte m a

/-- Replace all 32 bits of the register at a byte offset (R44). -/
def bankSetWord (m : List Host.Cell) (a : Nat) (v : Word) : List Host.Cell :=
  bankSetByte
    (bankSetByte
      (bankSetByte (bankSetByte m a (v.extractLsb' 0 8)) (a + 1) (v.extractLsb' 8 8))
      (a + 2) (v.extractLsb' 16 8))
    (a + 3) (v.extractLsb' 24 8)

/-- The registers with a reset value that is not 0 (R31). -/
def resetListed : List Reg :=
  .fstat :: [0, 1, 2, 3].flatMap fun n => [.sm n .clkdiv, .sm n .execctrl, .sm n .shiftctrl, .sm n .pinctrl]

/-- Each of these registers written with its reset word. -/
def writeResetWords (l : FieldLayout) : List Reg → List Host.Cell → List Host.Cell
  | [], m => m
  | r :: rest, m => writeResetWords l rest (bankSetWord m (regOffset r) (resetWord l r))

/-- The register bank of a block just constructed (R31). Nothing is listed with the default layout; with another one
the bytes that differ are. -/
def resetBank (l : FieldLayout) : List Host.Cell := writeResetWords l resetListed []

/-- Every entry is inside the bank, above `low`, rising, and not what the address reads as unlisted. -/
def cellsFrom : Nat → List Host.Cell → Bool
  | _, [] => true
  | low, (a, b) :: rest => low ≤ a && a < Config.bankBytes && b != resetByte a && cellsFrom (a + 1) rest

/-- The canonical form of the bank: addresses strictly rising, no entry equal to the reset contents. -/
def Memory.wf (m : List Host.Cell) : Bool := cellsFrom 0 m

end Sys2Proof.Machine
end

