-- ==== Sys2Proof/Machine/Defaults.lean ====
section
/-! DEFINITION. The default value of every open parameter (R6). -/

namespace Sys2Proof.Machine

/-- The spec's default for every open parameter but ACTIVE_LANE (R6): the tables of R22 and R81 to R83 (PRESUMED, log
entries 2 and 3) and 0 for every reset value (DESIGN CHOICE, log entries 4, 5 and 7). -/
def defaultParams : Config.Params where
  layout := defaultLayout
  enums := defaultEnums

end Sys2Proof.Machine
end

