-- ==== Sys2Proof/Machine/State.lean ====
section
/-! DEFINITION. The state of one block (R10), plain data, and its value right after reset (R31 to R34). -/

namespace Sys2Proof.Machine

/-- The fault kinds of R151, by name (D21, log entry 25), with the value a kind records where R153 and R154 say it records
one. A Step that raises a kind latches it in `State.halted` and goes on to a next state that is halted (R90,
R150): see `raise` in Machine/Ops.lean and log entry 10. No step answers `Host.Outcome.fault`. -/
inductive Fault where
  /-- R152. Raised by the delay charge with SIDESET_COUNT not 0, by WAIT with the Reserved source and by
  every IN, OUT, MOV and IRQ. Safe: the spec gives this fault. -/
  | unsupportedInstruction
  /-- R153. Raised by SET with a Reserved destination, which it records. Safe: the spec gives this fault. -/
  | unsupportedDestination (destination : BitVec 3)
  /-- R154. Raised by WAIT IRQ with an index of 8 or more, which it records. Safe: the spec gives it. -/
  | indexOutOfRange (index : BitVec 5)
  /-- R155. Raised by a nonblocking PUSH on a full RX FIFO; also how `HostTxPush` fails. Safe. -/
  | fifoFull
  /-- R156. Raised by `popTx` on an empty TX FIFO, which no instruction does; also how `HostRxPop` fails.
  Safe. -/
  | fifoEmpty
  /-- R157. Raised by `setPc` above 31, which no instruction does, and by a ranged pin write of more than 32 pins,
  which SET does only in a layout with a SET_COUNT field wider than five bits (R58; log entry 35); also how
  `set_instruction_word` fails. Safe. -/
  | outOfRange (value : Nat)
  /-- R158. Raised by a fetch above 31, which no state does. Safe. -/
  | invalidProgramCounter (pc : Nat)
  /-- R159. A decoder's; raised by nothing, the decoder being total (R87). Safe. -/
  | invalidOpcode
  /-- R159. A decoder's; raised by nothing, the decoder being total (R87). Safe. -/
  | invalidEncoding
  /-- R160. How a host operation with a lane selector outside 0 to 3 fails; raised by no Step. Safe. -/
  | invalidLaneIndex (lane : Nat)
deriving DecidableEq, Repr

/-- Why a step has no next state. -/
inductive Refusal where
  /-- An instruction with no meaning yet, by its mnemonic; raised by no arm of `exec`. Safe. -/
  | notModelled (mnemonic : String)
  /-- Raised by `step` on a halted block: "the block has no further Step" (R27, R90, U15). Safe: the spec
  gives a halted block no step. -/
  | blockHalted (kind : Fault)
deriving DecidableEq, Repr

/-- One lane record (R10, R11, R13, R15, R16, R18, R19). -/
structure Lane where
  /-- The program counter: an index into the instruction memory (R13, R28; log entry 26). -/
  pc : BitVec 5
  /-- Scratch register X (R11). -/
  x : Word
  /-- Scratch register Y (R11). -/
  y : Word
  /-- The output shift register (R15). -/
  osr : Word
  /-- The output-bit counter, 0 to 32 (R15, R17). -/
  osrCount : Fin 33
  /-- The input shift register (R16). -/
  isr : Word
  /-- The input-bit counter, 0 to 32 (R16, R17). -/
  isrCount : Fin 33
  /-- The TX FIFO, oldest word first (R18). -/
  txf : List Word
  /-- The RX FIFO, oldest word first (R19). -/
  rxf : List Word
deriving DecidableEq, Repr

/-- The four lane records of a block (R10, R36). -/
structure Lanes where
  lane0 : Lane
  lane1 : Lane
  lane2 : Lane
  lane3 : Lane
deriving DecidableEq, Repr

/-- The pin array as its two planes (R26). -/
structure Gpio where
  /-- `gpio.value[p]` is bit p. -/
  value : Word
  /-- `gpio.oe[p]` is bit p. -/
  oe : Word
deriving DecidableEq, Repr

/-- The complete state of one block, with the pin array it is bound to (R10, R26). -/
structure State where
  /-- ACTIVE_LANE (R6, R36), fixed at construction; no step writes it (log entry 1). -/
  activeLane : Fin 4
  /-- FIELD_LAYOUT (R6, R22), fixed at construction; no step writes it (log entry 34). -/
  layout : Config.FieldLayout
  /-- ENUM_MAP (R6, R81 to R83), fixed at construction; no step writes it (log entry 34). -/
  enums : Config.EnumMap
  /-- The lane records. -/
  lanes : Lanes
  /-- `pending_delay` (R20). -/
  pendingDelay : BitVec 5
  /-- The interrupt flags; `irq[i]` is bit i (R21). -/
  irq : BitVec 8
  /-- The register bank, as the bytes that differ from their reset value (R23, R50; log entry 9). -/
  mem : List Host.Cell
  /-- The halted latch (R27). -/
  halted : Option Fault
  /-- The pin array the block is bound to (R26; log entry 28). -/
  gpio : Gpio
  /-- The model's own: how many free values have been drawn (log entry 12). -/
  freeIdx : Nat
deriving DecidableEq, Repr

/-- A lane record after construction (R32). -/
def Lane.atReset (p : Config.Params) : Lane where
  pc := 0
  x := p.xInit
  y := p.yInit
  osr := p.osrInit
  osrCount := p.osrCountInit
  isr := p.isrInit
  isrCount := p.isrCountInit
  txf := []
  rxf := []

/-- The pin array at its own creation (R34). -/
def Gpio.created (p : Config.Params) : Gpio := ⟨p.gpioValueInit, p.gpioOeInit⟩

/-- A block just constructed with an active lane and a pin array (R31, R32, R33, R180, R181). -/
def State.atReset (p : Config.Params) (lane : Fin 4) (pins : Gpio) : State where
  activeLane := lane
  layout := p.layout
  enums := p.enums
  lanes := ⟨Lane.atReset p, Lane.atReset p, Lane.atReset p, Lane.atReset p⟩
  pendingDelay := 0
  irq := 0
  mem := resetBank p.layout
  halted := none
  gpio := pins
  freeIdx := 0

/-- The block right after reset: every open parameter at the spec's default and, DESIGN CHOICE, lane 0 as
the active lane (R6, R181; log entries 1 to 8). -/
def State.reset : State := State.atReset defaultParams 0 (Gpio.created defaultParams)

end Sys2Proof.Machine
end

