-- ==== Sys2Proof/Machine/Operands.lean ====
section
/-! DEFINITION. The operands an instruction takes from the lane record and from the register bank: the
active lane's record (R36) and its configured fields (R24, R46). -/

namespace Sys2Proof.Machine

open Config (FieldName)

/-- The lane record of a lane. -/
def getLane (l : Lanes) (n : Fin 4) : Lane :=
  match n with
  | 0 => l.lane0
  | 1 => l.lane1
  | 2 => l.lane2
  | 3 => l.lane3

/-- Replace the lane record of a lane. -/
def setLane (l : Lanes) (n : Fin 4) (r : Lane) : Lanes :=
  match n with
  | 0 => { l with lane0 := r }
  | 1 => { l with lane1 := r }
  | 2 => { l with lane2 := r }
  | 3 => { l with lane3 := r }

/-- The active lane's record, `lane[ACTIVE_LANE]` (R36). -/
def active (s : State) : Lane := getLane s.lanes s.activeLane

/-- Replace the active lane's record. -/
def setActive (s : State) (r : Lane) : State := { s with lanes := setLane s.lanes s.activeLane r }

/-- A field as lane n's group holds it, at the place the layout gives it (R22, R24, R47). -/
def laneField (s : State) (n : Fin 4) (f : FieldName) : Nat :=
  getField (bankWord s.mem (regOffset (fieldReg n f))) (fieldPos s.layout f)

/-- A configured field of the active lane, read afresh at each use (R24, R185). -/
def configured (s : State) (f : FieldName) : Nat := laneField s s.activeLane f

/-- SIDESET_COUNT of the active lane (R94). -/
def sidesetCount (s : State) : Nat := configured s .sidesetCount

/-- The raw threshold PUSH compares `isr_count` with; 0 is 0 (R120; D26, log entry 14). -/
def pushThreshold (s : State) : Nat := configured s .pushThresh

/-- The raw threshold PULL and JMP !OSRE compare `osr_count` with; 0 is 0 (R108, R121; D26). -/
def pullThreshold (s : State) : Nat := configured s .pullThresh

/-- The pin JMP PIN reads: JMP_PIN, absolute (R107). -/
def jmpPinIndex (s : State) : Nat := configured s .jmpPin

/-- The pin WAIT PIN polls: its index offset by IN_BASE (R112). -/
def waitPinIndex (s : State) (index : Five) : Nat := index.toNat + configured s .inBase

/-- The first pin of SET's range (R131, R134). -/
def setBaseIndex (s : State) : Nat := configured s .setBase

/-- How many pins SET writes (R131, R134). -/
def setPinCount (s : State) : Nat := configured s .setCount

/-- SET's immediate, zero-extended to 32 bits (R80, R132). -/
def immediate (data : Five) : Word := data.setWidth 32

end Sys2Proof.Machine
end

