-- ==== Sys2Proof/Machine/Ops.lean ====
section
/-! DEFINITION. The named operations every instruction is built from (00_scope.md section 5): raising a
fault, the program counter, the scratch registers, the FIFOs, the pin array, the delay stage, the fetch, and
the delay charge. -/

namespace Sys2Proof.Machine

/-- What a step answers. -/
abbrev Answer := Host.Outcome State Fault Refusal

/-! ## Taking a fault -/

/-- `raise K` (R150, R162): the effects made so far are kept, `halted` is set to K, control goes nowhere; no
state is saved and no handler runs. There is no return from it (R163). DESIGN CHOICE of the spec (D8), of the
model that it is a next state: log entry 10. -/
def raise (k : Fault) (s : State) : Answer := .next { s with halted := some k }

/-! ## Program counter (R13, R14) -/

/-- `IncPc()`: from 31 to 0, whatever WRAP_TOP holds (R13). -/
def incPc (s : State) : State :=
  let r := active s
  setActive s { r with pc := r.pc + 1 }

/-- `SetPc(t)`: above 31 raises OutOfRange and leaves `pc` (R14). -/
def setPc (t : Nat) (s : State) : Answer :=
  if 31 < t then raise (.outOfRange t) s
  else
    let r := active s
    .next (setActive s { r with pc := BitVec.ofNat 5 t })

/-! ## Scratch registers (R12) -/

/-- `DecX()`: unconditional, wraps (R12; D6, log entry 15). -/
def decX (s : State) : State :=
  let r := active s
  setActive s { r with x := r.x - 1 }

/-- `DecY()`: unconditional, wraps (R12; D6, log entry 15). -/
def decY (s : State) : State :=
  let r := active s
  setActive s { r with y := r.y - 1 }

/-! ## FIFOs (R60, R61, R62) -/

/-- A push at the young end of a bounded queue (R60, R63; log entry 31). -/
def fifoPush (q : List Word) (v : Word) : Except Fault (List Word) :=
  if q.length < Config.fifoDepth then .ok (q ++ [v]) else .error .fifoFull

/-- A pop at the old end (R61, R64; D22, log entry 20). -/
def fifoPop (q : List Word) : Except Fault (Word × List Word) :=
  match q with
  | [] => .error .fifoEmpty
  | v :: rest => .ok (v, rest)

/-- `RxFull()` on the lane record, not on FSTAT (R62; log entry 31). -/
def rxFull (s : State) : Bool := Config.fifoDepth ≤ (active s).rxf.length

/-- `TxEmpty()` on the lane record, not on FSTAT (R62). -/
def txEmpty (s : State) : Bool := (active s).txf.isEmpty

/-- `PushRx(v)` (R60). -/
def pushRx (v : Word) (s : State) : Except Fault State :=
  match fifoPush (active s).rxf v with
  | .error k => .error k
  | .ok q =>
    let r := active s
    .ok (setActive s { r with rxf := q })

/-- `PopTx()` (R61). -/
def popTx (s : State) : Except Fault (Word × State) :=
  match fifoPop (active s).txf with
  | .error k => .error k
  | .ok (v, q) =>
    let r := active s
    .ok (v, setActive s { r with txf := q })

/-! ## Pin array (R55 to R58) -/

/-- `GpioRead(p)`: the value bit of pin p mod 32, output-enable not consulted (R55; D27, log entry 21). -/
def gpioRead (p : Nat) (g : Gpio) : Bool := g.value.getLsbD (p % 32)

/-- One bit of a plane replaced. -/
def writeBit (plane : Word) (p : Nat) (b : Bool) : Word :=
  if b then plane ||| BitVec.twoPow 32 p else plane &&& ~~~(BitVec.twoPow 32 p)

/-- Bit i of `bits` to pin (base + i) mod 32 for i below the count (R56, R57). -/
def rangeWrite (plane : Word) (base : Nat) (bits : Word) : Nat → Word
  | 0 => plane
  | i + 1 => writeBit (rangeWrite plane base bits i) ((base + i) % 32) (bits.getLsbD i)

/-- `GpioWriteRange` (R56); above 32 pins OutOfRange before any change (R58; D16, log entry 21). -/
def gpioWriteRange (base count : Nat) (bits : Word) (g : Gpio) : Except Fault Gpio :=
  if 32 < count then .error (.outOfRange count)
  else .ok { g with value := rangeWrite g.value base bits count }

/-- `GpioWriteEnableRange` (R57, R58). -/
def gpioWriteEnableRange (base count : Nat) (bits : Word) (g : Gpio) : Except Fault Gpio :=
  if 32 < count then .error (.outOfRange count)
  else .ok { g with oe := rangeWrite g.oe base bits count }

/-! ## The delay (R91, R94) -/

/-- Write `pending_delay` (R20). -/
def setDelay (d : BitVec 5) (s : State) : State := { s with pendingDelay := d }

/-- The delay stage of a Step (R91). -/
def delayStage (s : State) : State := setDelay (s.pendingDelay - 1) s

/-- The store of `ChargeDelay(ds)` (R94): the low 5 - SIDESET_COUNT bits of `ds`; nothing for 5; above 5 a
free value (D20, log entries 12 and 35). -/
def chargeDelay (ds : Five) (s : State) : State :=
  let sc := sidesetCount s
  if sc < 5 then setDelay (BitVec.ofNat 5 (ds.toNat % 2 ^ (5 - sc))) s
  else if sc = 5 then s
  else { s with pendingDelay := Config.unstatedDelay s.freeIdx, freeIdx := s.freeIdx + 1 }

/-- `ChargeDelay(ds)` and then the rest of the instruction: the store first, then UnsupportedInstruction if
SIDESET_COUNT is not 0 (R94, R161; the order is DEDUCED, log entry 19). -/
def withDelay (ds : Five) (s : State) (rest : State → Answer) : Answer :=
  if sidesetCount s = 0 then rest (chargeDelay ds s)
  else raise .unsupportedInstruction (chargeDelay ds s)

/-! ## The fetch (R92) -/

/-- The byte offset of instruction-memory word i (R43). -/
def instrOffset (i : Nat) : Nat := 0x048 + 4 * i

/-- The fetch of a Step from an index (R92); above 31 it is InvalidProgramCounter (R158). -/
def fetchAt (pc : Nat) (s : State) : Except Fault Word :=
  if 31 < pc then .error (.invalidProgramCounter pc) else .ok (bankWord s.mem (instrOffset pc))

/-- The fetch at the active lane's `pc` (R92). -/
def fetch (s : State) : Except Fault Word := fetchAt (active s).pc.toNat s

end Sys2Proof.Machine
end

