-- ==== Sys2Proof/Machine/Flags.lean ====
section
/-! DEFINITION. What an instruction tests. The PIO core has no status flags and no condition codes (R29): a JMP
tests its condition directly (R101 to R108), and WAIT IRQ reads an interrupt flag (R113). A condition answers
whether it holds and the state after it, which X-- and Y-- change. -/

namespace Sys2Proof.Machine

/-- `Cond(0)` (R101). -/
def condAlways (s : State) : Bool × State := (true, s)

/-- `Cond(1)`: X = 0 (R102). -/
def condNotX (s : State) : Bool × State := ((active s).x == 0, s)

/-- `Cond(2)`: the old X is not 0; X is decremented in every case (R103). -/
def condXDec (s : State) : Bool × State := ((active s).x != 0, decX s)

/-- `Cond(3)`: Y = 0 (R104). -/
def condNotY (s : State) : Bool × State := ((active s).y == 0, s)

/-- `Cond(4)`: the old Y is not 0; Y is decremented in every case (R105). -/
def condYDec (s : State) : Bool × State := ((active s).y != 0, decY s)

/-- `Cond(5)`: X is not Y (R106). -/
def condXNeY (s : State) : Bool × State := ((active s).x != (active s).y, s)

/-- `Cond(6)`: the pin JMP_PIN reads 1 (R107). -/
def condPin (s : State) : Bool × State := (gpioRead (jmpPinIndex s) s.gpio, s)

/-- `Cond(7)`: `osr_count` has reached PULL_THRESH (R108). -/
def condNotOsre (s : State) : Bool × State := (pullThreshold s ≤ (active s).osrCount.val, s)

/-- An interrupt flag by its index; 8 and above is IndexOutOfRange (R113, R154). -/
def irqFlag (index : Five) (s : State) : Except Fault Bool :=
  if 8 ≤ index.toNat then .error (.indexOutOfRange index) else .ok (s.irq.getLsbD index.toNat)

end Sys2Proof.Machine
end

