-- ==== Sys2Proof/Machine/Jmp.lean ====
section
/-! DEFINITION. JMP (41_jmp.md). -/

namespace Sys2Proof.Machine

/-- JMP, what all conditions share (R100): the delay is charged before the condition is evaluated, which is
before `pc` is written. -/
def jump (cond : State → Bool × State) (ds address : Five) (s : State) : Answer :=
  withDelay ds s fun s1 =>
    if (cond s1).1 then setPc address.toNat (cond s1).2 else .next (incPc (cond s1).2)

/-- JMP Always (R101). -/
def execJmpAlways (ds address : Five) (s : State) : Answer := jump condAlways ds address s

/-- JMP !X (R102). -/
def execJmpNotX (ds address : Five) (s : State) : Answer := jump condNotX ds address s

/-- JMP X-- (R103). -/
def execJmpXDec (ds address : Five) (s : State) : Answer := jump condXDec ds address s

/-- JMP !Y (R104). -/
def execJmpNotY (ds address : Five) (s : State) : Answer := jump condNotY ds address s

/-- JMP Y-- (R105). -/
def execJmpYDec (ds address : Five) (s : State) : Answer := jump condYDec ds address s

/-- JMP X!=Y (R106). -/
def execJmpXNeY (ds address : Five) (s : State) : Answer := jump condXNeY ds address s

/-- JMP PIN (R107). -/
def execJmpPin (ds address : Five) (s : State) : Answer := jump condPin ds address s

/-- JMP !OSRE (R108). -/
def execJmpNotOsre (ds address : Five) (s : State) : Answer := jump condNotOsre ds address s

end Sys2Proof.Machine
end

