-- ==== Sys2Proof/Machine/PushPull.lean ====
section
/-! DEFINITION. PUSH and PULL (43_push_pull.md). Neither writes its bit counter (R17). -/

namespace Sys2Proof.Machine

/-- The transfer of PUSH: `isr` onto the RX FIFO, `isr` cleared, `pc` advanced; a full FIFO faults with nothing
written (R120, R164). -/
def pushTransfer (s : State) : Answer :=
  match pushRx (active s).isr s with
  | .error k => raise k s
  | .ok t =>
    let r := active t
    .next (incPc (setActive t { r with isr := 0 }))

/-- PUSH (R120, R122, R123): the threshold skip, then the stall, then the transfer. The skip advances `pc` (D5,
log entry 14). -/
def execPush (ds : Five) (ifFull block : Bool) (s : State) : Answer :=
  withDelay ds s fun s1 =>
    if ifFull ∧ (active s1).isrCount.val < pushThreshold s1 then .next (incPc s1)
    else if block ∧ rxFull s1 then .next s1
    else pushTransfer s1

/-- Load `osr` and advance `pc` (R121). -/
def loadOsr (v : Word) (s : State) : State :=
  let r := active s
  incPc (setActive s { r with osr := v })

/-- The transfer of PULL: the oldest TX word, or X when the TX FIFO is empty (R121). -/
def pullTransfer (s : State) : Answer :=
  if txEmpty s then .next (loadOsr (active s).x s)
  else
    match popTx s with
    | .error k => raise k s
    | .ok (v, t) => .next (loadOsr v t)

/-- PULL (R121, R122, R123): the threshold skip, then the stall, then the transfer. -/
def execPull (ds : Five) (ifEmpty block : Bool) (s : State) : Answer :=
  withDelay ds s fun s1 =>
    if ifEmpty ∧ (active s1).osrCount.val < pullThreshold s1 then .next (incPc s1)
    else if block ∧ txEmpty s1 then .next s1
    else pullTransfer s1

end Sys2Proof.Machine
end

