-- ==== Sys2Proof/Machine/Set.lean ====
section
/-! DEFINITION. SET (44_set.md). Every destination that does not fault advances `pc` after its write (R130; D4,
log entry 13). -/

namespace Sys2Proof.Machine

/-- SET to a scratch register of the lane (R130, R132, R133). -/
def setScratch (write : Lane → Lane) (ds : Five) (s : State) : Answer :=
  withDelay ds s fun s1 => .next (incPc (setActive s1 (write (active s1))))

/-- SET to a plane of the pin array (R130, R131, R134). -/
def setPlane (write : Nat → Nat → Word → Gpio → Except Fault Gpio) (ds data : Five) (s : State) : Answer :=
  withDelay ds s fun s1 =>
    match write (setBaseIndex s1) (setPinCount s1) (immediate data) s1.gpio with
    | .error k => raise k s1
    | .ok g => .next (incPc { s1 with gpio := g })

/-- SET with a Reserved destination, which records the number ENUM_MAP gives it (R135, R153). -/
def setReserved (number : Config.SetNumbers → BitVec 3) (ds : Five) (s : State) : Answer :=
  withDelay ds s (raise (.unsupportedDestination (number s.enums.set)))

/-- SET PINS: the value plane (R131). -/
def execSetPins (ds data : Five) (s : State) : Answer := setPlane gpioWriteRange ds data s

/-- SET X (R132). -/
def execSetX (ds data : Five) (s : State) : Answer := setScratch (fun r => { r with x := immediate data }) ds s

/-- SET Y (R133). -/
def execSetY (ds data : Five) (s : State) : Answer := setScratch (fun r => { r with y := immediate data }) ds s

/-- SET PINDIRS: the output-enable plane (R134). -/
def execSetPindirs (ds data : Five) (s : State) : Answer := setPlane gpioWriteEnableRange ds data s

/-- SET, the Reserved destination that is 3 by default (R135). -/
def execSetRsvd3 (ds _data : Five) (s : State) : Answer := setReserved (·.rsvd3) ds s

/-- SET, the Reserved destination that is 5 by default (R135). -/
def execSetRsvd5 (ds _data : Five) (s : State) : Answer := setReserved (·.rsvd5) ds s

/-- SET, the Reserved destination that is 6 by default (R135). -/
def execSetRsvd6 (ds _data : Five) (s : State) : Answer := setReserved (·.rsvd6) ds s

/-- SET, the Reserved destination that is 7 by default (R135). -/
def execSetRsvd7 (ds _data : Five) (s : State) : Answer := setReserved (·.rsvd7) ds s

end Sys2Proof.Machine
end

