-- ==== Sys2Proof/Machine/Unimplemented.lean ====
section
/-! DEFINITION. IN, OUT, MOV and IRQ (45_unimplemented.md): the delay is charged, then UnsupportedInstruction is
raised, for every value of their fields. -/

namespace Sys2Proof.Machine

/-- The common rule (R140). -/
def unimplemented (ds : Five) (s : State) : Answer := withDelay ds s (raise .unsupportedInstruction)

/-- IN (R141). -/
def execInBits (ds : Five) (_source : BitVec 3) (_bitCount : Five) (s : State) : Answer := unimplemented ds s

/-- OUT (R142). -/
def execOutBits (ds : Five) (_destination : BitVec 3) (_bitCount : Five) (s : State) : Answer :=
  unimplemented ds s

/-- MOV, op 3 or not (R143). -/
def execMov (ds : Five) (_destination : BitVec 3) (_op : BitVec 2) (_source : BitVec 3) (s : State) : Answer :=
  unimplemented ds s

/-- IRQ: no interrupt flag is written (R144, C5). -/
def execIrq (ds : Five) (_clear _wait : Bool) (_index : Five) (s : State) : Answer := unimplemented ds s

end Sys2Proof.Machine
end

