-- ==== Sys2Proof/Machine/Wait.lean ====
section
/-! DEFINITION. WAIT (42_wait.md). -/

namespace Sys2Proof.Machine

/-- WAIT, what all sources share (R110). Not met: the charge is undone and the Step is `Held`, the state after
it exactly the state before it (R115; D7, log entry 11). -/
def waitFor (poll : State → Except Fault Bool) (ds : Five) (polarity : Bool) (s : State) : Answer :=
  withDelay ds s fun s1 =>
    match poll s1 with
    | .error k => raise k s1
    | .ok b => if b = polarity then .next (incPc s1) else .next s

/-- WAIT GPIO: the absolute pin (R111). -/
def execWaitGpio (ds : Five) (polarity : Bool) (index : Five) (s : State) : Answer :=
  waitFor (fun t => .ok (gpioRead index.toNat t.gpio)) ds polarity s

/-- WAIT PIN: the pin offset by IN_BASE (R112). -/
def execWaitPin (ds : Five) (polarity : Bool) (index : Five) (s : State) : Answer :=
  waitFor (fun t => .ok (gpioRead (waitPinIndex t index) t.gpio)) ds polarity s

/-- WAIT IRQ: an interrupt flag, which is not cleared (R113). -/
def execWaitIrq (ds : Five) (polarity : Bool) (index : Five) (s : State) : Answer :=
  waitFor (irqFlag index) ds polarity s

/-- WAIT with the Reserved source: UnsupportedInstruction after the charge, whatever the polarity and the
index (R114). -/
def execWaitRsvd (ds : Five) (polarity : Bool) (_index : Five) (s : State) : Answer :=
  waitFor (fun _ => .error .unsupportedInstruction) ds polarity s

end Sys2Proof.Machine
end

