-- ==== Sys2Proof/Machine/Dispatch.lean ====
section
/-! DEFINITION. The dispatch of a decoded instruction to its meaning (R93): nine kinds, 26 arms. -/

namespace Sys2Proof.Machine

def exec (i : Instr) (s : State) : Host.Outcome State Fault Refusal :=
  match i with
  | .jmpAlways ds address => Sys2Proof.Machine.execJmpAlways ds address s
  | .jmpNotX ds address => Sys2Proof.Machine.execJmpNotX ds address s
  | .jmpXDec ds address => Sys2Proof.Machine.execJmpXDec ds address s
  | .jmpNotY ds address => Sys2Proof.Machine.execJmpNotY ds address s
  | .jmpYDec ds address => Sys2Proof.Machine.execJmpYDec ds address s
  | .jmpXNeY ds address => Sys2Proof.Machine.execJmpXNeY ds address s
  | .jmpPin ds address => Sys2Proof.Machine.execJmpPin ds address s
  | .jmpNotOsre ds address => Sys2Proof.Machine.execJmpNotOsre ds address s
  | .waitGpio ds polarity index => Sys2Proof.Machine.execWaitGpio ds polarity index s
  | .waitPin ds polarity index => Sys2Proof.Machine.execWaitPin ds polarity index s
  | .waitIrq ds polarity index => Sys2Proof.Machine.execWaitIrq ds polarity index s
  | .waitRsvd ds polarity index => Sys2Proof.Machine.execWaitRsvd ds polarity index s
  | .inBits ds source bitCount => Sys2Proof.Machine.execInBits ds source bitCount s
  | .outBits ds destination bitCount => Sys2Proof.Machine.execOutBits ds destination bitCount s
  | .push ds ifFull block => Sys2Proof.Machine.execPush ds ifFull block s
  | .pull ds ifEmpty block => Sys2Proof.Machine.execPull ds ifEmpty block s
  | .mov ds destination op source => Sys2Proof.Machine.execMov ds destination op source s
  | .irq ds clear wait index => Sys2Proof.Machine.execIrq ds clear wait index s
  | .setPins ds data => Sys2Proof.Machine.execSetPins ds data s
  | .setX ds data => Sys2Proof.Machine.execSetX ds data s
  | .setY ds data => Sys2Proof.Machine.execSetY ds data s
  | .setRsvd3 ds data => Sys2Proof.Machine.execSetRsvd3 ds data s
  | .setPindirs ds data => Sys2Proof.Machine.execSetPindirs ds data s
  | .setRsvd5 ds data => Sys2Proof.Machine.execSetRsvd5 ds data s
  | .setRsvd6 ds data => Sys2Proof.Machine.execSetRsvd6 ds data s
  | .setRsvd7 ds data => Sys2Proof.Machine.execSetRsvd7 ds data s

end Sys2Proof.Machine
end

