-- ==== Sys2Proof/Machine/Step.lean ====
section
/-! DEFINITION. One Step of a block (40_step.md), and how an instruction is put where the next Step fetches. -/

namespace Sys2Proof.Machine

/-- `Step()` (R90 to R93): a halted block has none; a pending delay is counted down without a fetch; otherwise
the word at `pc` is fetched, decoded and executed. -/
def step (s : State) : Host.Outcome State Fault Refusal :=
  match s.halted with
  | some k => .refused (.blockHalted k)
  | none =>
    if s.pendingDelay ≠ 0 then .next (delayStage s)
    else
      match fetch s with
      | .error k => raise k s
      | .ok w => exec (decode s.enums w) s

/-- `s` with an instruction word stored where `step` fetches its next instruction, and what that fetch needs: no
pending delay and no halt (R91, R92; log entry 18). -/
def State.withFetchWord (s : State) (nbits w : Nat) : State :=
  { s with
    mem := bankSetWord s.mem (instrOffset (active s).pc.toNat) (BitVec.ofNat 32 (w % 2 ^ nbits))
    pendingDelay := 0
    halted := none }

end Sys2Proof.Machine
end

