-- ==== Sys2Proof/WellFormed.lean ====
section
/-! DEFINITION. Checks on syntax and on configuration. Every operand of `Instr` has its field's width as its
type, so every term of `Instr` encodes (R72, R87: no encoding is illegal at decode) and there is no range to
check. What can be checked is whether an instruction is one that this hardware executes (R85), and whether
the two tables of R6 are tables (R22, R47, R81 to R83). -/

namespace Sys2Proof

/-- An encoding that does not fault whatever the state (R85, with SIDESET_COUNT 0): no Reserved member, no
unimplemented kind, no flag index of 8 or more. `PUSH` is executable; it faults on some states only. -/
def Instr.executable : Instr → Bool
  | .jmpAlways .. | .jmpNotX .. | .jmpXDec .. | .jmpNotY .. => true
  | .jmpYDec .. | .jmpXNeY .. | .jmpPin .. | .jmpNotOsre .. => true
  | .waitGpio .. | .waitPin .. => true
  | .waitIrq _ _ index => index.toNat < 8
  | .waitRsvd .. => false
  | .inBits .. | .outBits .. | .mov .. | .irq .. => false
  | .push .. | .pull .. => true
  | .setPins .. | .setX .. | .setY .. | .setPindirs .. => true
  | .setRsvd3 .. | .setRsvd5 .. | .setRsvd6 .. | .setRsvd7 .. => false

namespace Config

/-- The field lies inside its 32-bit register. -/
def FieldPos.inWord (p : FieldPos) : Bool := 0 < p.width && p.offset + p.width ≤ 32

/-- Two fields of one register share no bit. -/
def FieldPos.apart (p q : FieldPos) : Bool := p.offset + p.width ≤ q.offset || q.offset + q.width ≤ p.offset

/-- The fields of each kind of register, with the least width that holds the reset value the source gives (0xF, 0xF,
1, 0x1F, 1, 1, 5; one bit where it gives none) (R22). -/
def FieldLayout.groups (l : FieldLayout) : List (List (FieldPos × Nat)) :=
  [[(l.rxEmpty, 4), (l.txEmpty, 4)], [(l.clkdivInt, 1)], [(l.wrapTop, 5), (l.jmpPin, 1)],
    [(l.inShiftdir, 1), (l.outShiftdir, 1), (l.pushThresh, 1), (l.pullThresh, 1)],
    [(l.outBase, 1), (l.setBase, 1), (l.inBase, 1), (l.setCount, 3), (l.sidesetCount, 1)]]

/-- Each field of one register apart from the ones after it. -/
def apartAll : List (FieldPos × Nat) → Bool
  | [] => true
  | f :: rest => rest.all (fun g => f.1.apart g.1) && apartAll rest

/-- A layout R22 admits: each field inside its register and wide enough, the fields of a register apart. -/
def layoutOk (l : FieldLayout) : Bool :=
  l.groups.all fun g => g.all (fun f => f.1.inWord && decide (f.2 ≤ f.1.width)) && apartAll g

/-- A numbering R81 to R83 admit: the members of an enum have different numbers, and JMP Always has the one number
the source gives, 0. -/
def enumsOk (m : EnumMap) : Bool :=
  decide [m.jmp.always, m.jmp.notX, m.jmp.xDec, m.jmp.notY, m.jmp.yDec, m.jmp.xNeY, m.jmp.pin,
    m.jmp.notOsre].Nodup &&
  m.jmp.always == 0 &&
  decide [m.wait.gpio, m.wait.pin, m.wait.irq, m.wait.rsvd].Nodup &&
  decide [m.set.pins, m.set.x, m.set.y, m.set.rsvd3, m.set.pindirs, m.set.rsvd5, m.set.rsvd6, m.set.rsvd7].Nodup

/-- Parameters a block can be constructed with (log entry 34). -/
def Params.ok (p : Params) : Bool := layoutOk p.layout && enumsOk p.enums

end Config
end Sys2Proof
end

