-- ==== Sys2Proof/Machine/HostOps.lean ====
section
/-! DEFINITION. What the host and the environment do to a block between Steps (R53): register bank access (R44,
R47, R48, R49), the FIFO ports (R63, R64), the pin port (R59), and construction (R180). None of these is part of
a Step. -/

namespace Sys2Proof.Machine

open Config (FieldName Params)

/-- How an action of the host ends. A failure belongs to the call: it changes nothing and does not halt the
block (R49, R63, R64, R66, U22; log entry 32). -/
inductive HostResult where
  /-- Done: the block after it and the word it returns, if it returns one. -/
  | done (s : State) (reply : Option Word)
  /-- Failed with a kind of R151. -/
  | failed (k : Fault)
  /-- An access that has no meaning (R44, U16). -/
  | refused
deriving DecidableEq, Repr

/-- The actions of the host and of the environment. A lane or an index is any number, checked when it is used. -/
inductive HostOp where
  /-- `MemRead(addr, width)` (R44). -/
  | memRead (addr width : Nat)
  /-- `MemWrite(addr, width, v)` (R44). -/
  | memWrite (addr width : Nat) (v : Word)
  /-- A read of `SM(n).REG` by lane index (R42, R66). -/
  | smRead (lane : Nat) (r : SmReg)
  /-- A write of `SM(n).REG` by lane index (R42, R66). -/
  | smWrite (lane : Nat) (r : SmReg) (v : Word)
  /-- A field read through lane n's group (R47). -/
  | fieldRead (lane : Nat) (f : FieldName)
  /-- A field write through lane n's group, one atomic action (R48). -/
  | fieldWrite (lane : Nat) (f : FieldName) (n : Nat)
  /-- `set_instruction_word(index, value)` (R49). -/
  | setInstructionWord (index : Nat) (value : InstrWord)
  /-- `HostTxPush(n, v)` (R63). -/
  | txPush (lane : Nat) (v : Word)
  /-- `HostRxPop(n)` (R64). -/
  | rxPop (lane : Nat)
  /-- `EnvDrivePin(p, v)` (R59). -/
  | drivePin (p : Nat) (v : Bool)
deriving DecidableEq, Repr

/-- An access that has a meaning: an aligned 32-bit word of the bank (R44; D15, log entry 9). -/
def accessOk (addr width : Nat) : Bool := width == 4 && addr % 4 == 0 && addr ≤ Config.lastOffset

/-- Run an operation on a lane selector, which fails outside 0 to 3 (R66, R160). -/
def withLane (n : Nat) (act : Fin 4 → HostResult) : HostResult :=
  if h : n < 4 then act ⟨n, h⟩ else .failed (.invalidLaneIndex n)

/-- `MemRead` (R44, R45: no side effect). -/
def hostMemRead (addr width : Nat) (s : State) : HostResult :=
  if accessOk addr width then .done s (some (bankWord s.mem addr)) else .refused

/-- `MemWrite` (R44, R45: the addressed register and nothing else). -/
def hostMemWrite (addr width : Nat) (v : Word) (s : State) : HostResult :=
  if accessOk addr width then .done { s with mem := bankSetWord s.mem addr v } none else .refused

/-- A read of a register of lane n's group (R42, R44, R66). -/
def hostSmRead (n : Nat) (r : SmReg) (s : State) : HostResult :=
  withLane n fun lane => hostMemRead (regOffset (.sm lane r)) 4 s

/-- A write of a register of lane n's group (R42, R44, R66). -/
def hostSmWrite (n : Nat) (r : SmReg) (v : Word) (s : State) : HostResult :=
  withLane n fun lane => hostMemWrite (regOffset (.sm lane r)) 4 v s

/-- A field read (R47). -/
def hostFieldRead (n : Nat) (f : FieldName) (s : State) : HostResult :=
  withLane n fun lane => .done s (some (BitVec.ofNat 32 (laneField s lane f)))

/-- A field write: read the register, set the field, write it back (R48). -/
def hostFieldWrite (n : Nat) (f : FieldName) (v : Nat) (s : State) : HostResult :=
  withLane n fun lane =>
    let a := regOffset (fieldReg lane f)
    .done { s with mem := bankSetWord s.mem a (setField (bankWord s.mem a) (fieldPos s.layout f) v) } none

/-- `set_instruction_word`: any sixteen bits, zero-extended, no decoding; an index above 31 fails (R49; D19, log
entry 22). -/
def hostSetInstructionWord (index : Nat) (value : InstrWord) (s : State) : HostResult :=
  if 31 < index then .failed (.outOfRange index)
  else .done { s with mem := bankSetWord s.mem (instrOffset index) (value.setWidth 32) } none

/-- `HostTxPush` (R63; D10, log entry 17). -/
def hostTxPush (n : Nat) (v : Word) (s : State) : HostResult :=
  withLane n fun lane =>
    let r := getLane s.lanes lane
    match fifoPush r.txf v with
    | .error k => .failed k
    | .ok q => .done { s with lanes := setLane s.lanes lane { r with txf := q } } none

/-- `HostRxPop` (R64; D10, log entry 17). -/
def hostRxPop (n : Nat) (s : State) : HostResult :=
  withLane n fun lane =>
    let r := getLane s.lanes lane
    match fifoPop r.rxf with
    | .error k => .failed k
    | .ok (v, q) => .done { s with lanes := setLane s.lanes lane { r with rxf := q } } (some v)

/-- `EnvDrivePin`: the value plane only, output-enable ignored (R59; D14, log entry 17). -/
def envDrivePin (p : Nat) (v : Bool) (s : State) : HostResult :=
  .done { s with gpio := { s.gpio with value := writeBit s.gpio.value (p % 32) v } } none

/-- One action of the host or of the environment. -/
def hostOp (op : HostOp) (s : State) : HostResult :=
  match op with
  | .memRead addr width => hostMemRead addr width s
  | .memWrite addr width v => hostMemWrite addr width v s
  | .smRead lane r => hostSmRead lane r s
  | .smWrite lane r v => hostSmWrite lane r v s
  | .fieldRead lane f => hostFieldRead lane f s
  | .fieldWrite lane f n => hostFieldWrite lane f n s
  | .setInstructionWord index value => hostSetInstructionWord index value s
  | .txPush lane v => hostTxPush lane v s
  | .rxPop lane => hostRxPop lane s
  | .drivePin p v => envDrivePin p v s

/-- Construction, the only reset (R180): a lane index outside 0 to 3 creates no block (R66), nor do tables that are no
FIELD_LAYOUT or ENUM_MAP (log entry 34); the pin array is the one given and keeps its contents (R34). A halted block
is left by constructing another on its pin array. -/
def construct (p : Params) (n : Nat) (pins : Gpio) : HostResult :=
  withLane n fun lane => if p.ok then .done (State.atReset p lane pins) none else .refused

end Sys2Proof.Machine
end

