-- ==== Sys2Proof/Machine/Run.lean ====
section
/-! DEFINITION. A Step's outcome as R90 names it, the run loop (R96), and runs in which host actions fall between
Steps (R53). -/

namespace Sys2Proof.Machine

/-- The three outcomes of a Step (R90). -/
inductive Verdict where
  | ok
  | held
  | fault (k : Fault)
deriving DecidableEq, Repr

/-- The word a Step would fetch belongs to a WAIT. -/
def fetchesWait (s : State) : Bool :=
  match fetch s with
  | .error _ => false
  | .ok w => (decode s.enums w).kind == .wait

/-- The outcome of the Step of `s` that answered `t` (R90, log entry 11): a fault is read off the latch; `Held` is
a WAIT that changed nothing (R115), which no completing WAIT does, since it advances `pc`. -/
def verdictOf (s t : State) : Verdict :=
  match t.halted with
  | some k => .fault k
  | none => if fetchesWait s ∧ t = s then .held else .ok

/-- The outcome of the next Step of a block, if it has one (R90, R27). -/
def verdict (s : State) : Option Verdict :=
  match step s with
  | .next t => some (verdictOf s t)
  | .fault k => some (.fault k)
  | .refused _ => none

/-- `run()` for at most `n` Steps: it ends at the first fault and returns its kind (R96). What it returns
on a block that is halted already, which has no Step, the spec does not say: DESIGN CHOICE, the latched kind at once
(log entry 33). -/
def runLoop : Nat → State → State × Option Fault
  | 0, s => (s, s.halted)
  | n + 1, s =>
    match step s with
    | .next t => if t.halted.isSome then (t, t.halted) else runLoop n t
    | .fault k => (s, some k)
    | .refused _ => (s, s.halted)

/-- One atomic action: a Step of the block, or an action of the host or the environment (R53). -/
inductive Event where
  | step
  | host (op : HostOp)
deriving DecidableEq, Repr

/-- The block after an action: a step a halted block does not have and a call that fails change nothing. -/
def afterEvent (e : Event) (s : State) : State :=
  match e with
  | .step =>
    match step s with
    | .next t => t
    | .fault _ => s
    | .refused _ => s
  | .host op =>
    match hostOp op s with
    | .done t _ => t
    | .failed _ => s
    | .refused => s

/-- The block after actions in their total order, every action seeing the effects of all earlier ones (R53). -/
def afterEvents : List Event → State → State
  | [], s => s
  | e :: rest, s => afterEvents rest (afterEvent e s)

end Sys2Proof.Machine
end

