-- ==== Sys2Proof/Machine/Board.lean ====
section
/-! DEFINITION. Several block instances bound to one pin array (R26, R65, C2): each has its own register bank,
instruction memory, flags, lanes and delay; they share the pin array and nothing else, and their actions
interleave one at a time (log entry 28). -/

namespace Sys2Proof.Machine

/-- A simulated board: one pin array and the blocks bound to it. The `gpio` of a listed block is not used: the
array is the board's. -/
structure Board where
  gpio : Gpio
  blocks : List State
deriving DecidableEq, Repr

/-- A block of the board with the shared pin array in place. -/
def boardBlock (b : Board) (i : Nat) : Option State :=
  (b.blocks[i]?).map fun s => { s with gpio := b.gpio }

/-- The board after one action of one of its blocks (R65): the pin array is as that block leaves it, every other
block as it was. An instance the board does not have does nothing. -/
def boardEvent (i : Nat) (e : Event) (b : Board) : Board :=
  match boardBlock b i with
  | none => b
  | some s =>
    let t := afterEvent e s
    { gpio := t.gpio, blocks := b.blocks.set i t }

/-- The board after an interleaving of its blocks' actions (R65). -/
def boardEvents : List (Nat × Event) → Board → Board
  | [], b => b
  | (i, e) :: rest, b => boardEvents rest (boardEvent i e b)

end Sys2Proof.Machine
end

