-- ==== Sys2Proof/Safety.lean ====
section
/-! DEFINITION. What counts as a good state and a safe run, in the terms statements use. -/

namespace Sys2Proof.Machine

/-- Both FIFOs of a lane hold at most four words (R18, R19, R28). -/
abbrev Lane.fifosBounded (r : Lane) : Prop :=
  r.txf.length ≤ Config.fifoDepth ∧ r.rxf.length ≤ Config.fifoDepth

/-- The fault kinds a Step can raise (R151, the column "reachable from a Step"), with the values they can record
(R153, R154). OutOfRange is one only with a SET_COUNT field that can hold more than 32 (R58, log entry 35): none with
the default layout. -/
def Fault.fromStep (l : Config.FieldLayout) (m : Config.EnumMap) : Fault → Bool
  | .unsupportedInstruction => true
  | .unsupportedDestination d => [m.set.rsvd3, m.set.rsvd5, m.set.rsvd6, m.set.rsvd7].contains d
  | .indexOutOfRange i => 8 ≤ i.toNat
  | .fifoFull => true
  | .outOfRange n => 32 < n && n < 2 ^ l.setCount.width
  | .fifoEmpty | .invalidProgramCounter _ => false
  | .invalidOpcode | .invalidEncoding | .invalidLaneIndex _ => false

/-- The invariant of R28 that types do not already say (`pc` and `pending_delay` are five bits wide), with the
canonical form of the bank, tables that are a FIELD_LAYOUT and an ENUM_MAP (R6; log entry 34), and a latch that holds
no fault but a Step's (R151). -/
def State.Inv (s : State) : Prop :=
  (∀ n : Fin 4, (getLane s.lanes n).fifosBounded) ∧
    Memory.wf s.mem = true ∧
    (Config.layoutOk s.layout = true ∧ Config.enumsOk s.enums = true) ∧
    ∀ k, s.halted = some k → k.fromStep s.layout s.enums = true

/-- A block that has a Step which fetches: not halted, no delay pending (R90, R91). -/
def State.atFetch (s : State) : Prop := s.halted = none ∧ s.pendingDelay = 0

/-- The block is configured as R190 demands: SIDESET_COUNT of the active lane is 0. -/
def State.sideSetOff (s : State) : Prop := sidesetCount s = 0

/-- Everything a Step never writes is the same in both: the register bank, the interrupt flags, the choice of
lane, the two tables and the other three lane records (R30, R46, R98). -/
def State.sameUntouched (s t : State) : Prop :=
  t.mem = s.mem ∧ t.irq = s.irq ∧ t.activeLane = s.activeLane ∧ t.layout = s.layout ∧ t.enums = s.enums ∧
    ∀ n : Fin 4, n ≠ s.activeLane → getLane t.lanes n = getLane s.lanes n

/-- The instruction at the active lane's `pc`: what a Step that fetches executes (R92, R93). -/
def State.fetched (s : State) : Instr :=
  decode s.enums (bankWord s.mem (instrOffset (active s).pc.toNat))

/-- The block after an instruction that charged the delay `ds` and left the active lane's record as `r`, all else
as in `s` (R94 with SIDESET_COUNT 0). -/
def State.completed (s : State) (ds : Five) (r : Lane) : State := setActive (setDelay ds s) r

/-- The block after an instruction that charged the delay `ds` and then raised `k`, all else as in `s` (R164). -/
def State.faulted (s : State) (ds : Five) (k : Fault) : State := { setDelay ds s with halted := some k }

/-- The lane record with `pc` at the next index, from 31 to 0 (R13). -/
def Lane.advanced (r : Lane) : Lane := { r with pc := r.pc + 1 }

end Sys2Proof.Machine
end

