-- ==== Sys2Proof/Certificates/Slice0/Obligations.lean ====
section
/-! DEFINITION. The statements for the provers, one def each. `s.sideSetOff` is SIDESET_COUNT = 0 in the active
lane's group, `s.atFetch` a block whose next Step fetches, `s.completed ds r` the block `s` with the delay `ds`
charged and the active lane's record `r`, `s.faulted ds k` the block `s` with the delay charged and `k` latched;
all else is as in `s`, so an equation with one of them says the whole frame too. -/

open Sys2Proof Sys2Proof.Machine

/-! ## Encoding -/

/-- Words of V-DEC in 95_test_vectors.md decode to the instructions that table gives (R73 to R80, R86). The numbers
of conditions, sources and destinations are the default ENUM_MAP (log entry 3). -/
def Obligations.DecodeReadsSpecWords : Prop :=
  let d := decode defaultEnums
  d 0x1F5A = .jmpXDec 31 26 ∧ d 0x2085 = .waitGpio 0 true 5 ∧ d 0x4A61 = .inBits 10 3 1 ∧ d 0x7F00 = .outBits 31 0 0 ∧
  d 0x801F = .push 0 false false ∧ d 0x9FFF = .pull 31 true true ∧ d 0xA31B = .mov 3 0 3 3 ∧
  d 0xC0FF = .irq 0 true true 31 ∧ d 0xE215 = .setPins 2 21 ∧ d 0xDEAD2085 = .waitGpio 0 true 5

/-- For every numbering R81 to R83 admit: every instruction is read back from its encoding, with every operand at
every value, whatever stands in bits [31:16] of the instruction-memory word (R70, R88; what an admitted numbering is,
log entry 34, the ignored half, log entry 23). -/
def Obligations.DecodeEncodeRoundTrip : Prop :=
  ∀ (m : Config.EnumMap) (i : Instr) (upper : BitVec 16), Config.enumsOk m = true →
    decode m (upper ++ encode m i) = i

/-- For every numbering R81 to R83 admit: every word is encoded back from its instruction, but for the bits R86 lists
as ignored, which are written 0 (R88; what an admitted numbering is, log entry 34). -/
def Obligations.EncodeDecodeKeepsSignificantBits : Prop :=
  ∀ (m : Config.EnumMap) (w : Word), Config.enumsOk m = true →
    encode m (decode m w) = w.setWidth 16 &&& significantBits (w.setWidth 16)

/-! ## The Step -/

/-- A Step of a block that is not halted and has no pending delay is the execution of the instruction its `pc`
points at, and nothing is done around it (R90 to R93). -/
def Obligations.StepRunsFetchedInstruction : Prop :=
  ∀ (s : State) (i : Instr), s.atFetch →
    decode s.enums (bankWord s.mem (instrOffset (active s).pc.toNat)) = i → step s = exec i s

/-- A word the host loads at `pc` between two Steps is what the very next Step executes, without any other action
(R49, R52). -/
def Obligations.LoadedWordRunsNext : Prop :=
  ∀ (s : State) (w : InstrWord), s.atFetch → Memory.wf s.mem = true →
    ∃ t, hostOp (.setInstructionWord (active s).pc.toNat w) s = .done t none ∧
      step t = exec (decodeInstr s.enums w) t

/-- The delay stage: a nonzero `pending_delay` is decremented, the outcome is `Ok`, nothing else changes, whatever
word stands at `pc` (R91). -/
def Obligations.DelayStageCountsDown : Prop :=
  ∀ s : State, s.halted = none → s.pendingDelay ≠ 0 →
    ∃ d : BitVec 5, d.toNat + 1 = s.pendingDelay.toNat ∧ step s = .next { s with pendingDelay := d } ∧
      verdict s = some .ok

/-- A pending delay of `d` is spent in `d` Steps that do nothing else, so a block is at its next fetch after
exactly that many (R95). -/
def Obligations.DelayIsSpentBeforeNextFetch : Prop :=
  ∀ (s : State) (k : Nat), s.halted = none → k ≤ s.pendingDelay.toNat →
    Host.Core.run core k s = .next { s with pendingDelay := s.pendingDelay - BitVec.ofNat 5 k }

/-- A halted block has no Step, and the run loop returns its fault at once. The latch is the spec's own choice (D8;
log entry 10), what the run loop returns is the model's (log entry 33). -/
def Obligations.HaltedBlockHasNoStep : Prop :=
  ∀ (s : State) (k : Fault), s.halted = some k →
    step s = .refused (.blockHalted k) ∧ verdict s = none ∧ ∀ n, runLoop n s = (s, some k)

/-- Every block that is not halted has a Step and a next state: no instruction is refused and no outcome but the
three of R90 exists (that a fault is a next state is the model's choice, log entry 10). -/
def Obligations.UnhaltedBlockAlwaysSteps : Prop :=
  ∀ s : State, s.halted = none → ∃ t v, step s = .next t ∧ verdict s = some v

/-- Every Step keeps the invariant: FIFOs of at most four words, the bank in canonical form, tables that are a
FIELD_LAYOUT and an ENUM_MAP, and only fault kinds a Step can raise in the latch (R6, R18, R19, R28, R151; the last with
log entry 35). -/
def Obligations.StepKeepsInvariant : Prop :=
  ∀ s t : State, s.Inv → step s = .next t → t.Inv

/-- A block just constructed meets the invariant, with any active lane, any open parameters it can be constructed with
and any pin array (the empty FIFOs are log entry 6, the reset contents of the bank log entries 8 and 34). -/
def Obligations.ResetMeetsInvariant : Prop :=
  State.reset.Inv ∧ ∀ (p : Config.Params) (lane : Fin 4) (pins : Gpio), p.ok = true →
    (State.atReset p lane pins).Inv

/-- Every interleaving of Steps with host and environment actions keeps the invariant (R28, R53). -/
def Obligations.EveryRunKeepsInvariant : Prop :=
  ∀ (es : List Event) (s : State), s.Inv → (afterEvents es s).Inv

/-- A Step never writes the register bank, and of the bank it reads the word at `pc` and seven fields of the active
lane's group only: with any other bank that agrees on these, it does the same (R46). -/
def Obligations.StepOnlyReadsItsRegisters : Prop :=
  ∀ (s t : State), step s = .next t →
    (∀ a, bankByte t.mem a = bankByte s.mem a) ∧
    ∀ m : List Host.Cell,
      bankWord m (instrOffset (active s).pc.toNat) = bankWord s.mem (instrOffset (active s).pc.toNat) →
      (∀ f ∈ [Config.FieldName.jmpPin, .pushThresh, .pullThresh, .sidesetCount, .setCount, .setBase, .inBase],
        configured { s with mem := m } f = configured s f) →
      step { s with mem := m } = .next { t with mem := m }

/-- A Step touches only the active lane's record, `pending_delay`, the latch and the pin array (R98; the count of
free values is the model's own, log entry 12). -/
def Obligations.StepTouchesOnlyItsLane : Prop :=
  ∀ s t : State, step s = .next t → s.sameUntouched t

/-- No Step writes a bit counter of any lane, so after any run each holds its reset value (R17). -/
def Obligations.BitCountersKeepResetValue : Prop :=
  (∀ s t : State, step s = .next t → ∀ n : Fin 4,
    (getLane t.lanes n).osrCount = (getLane s.lanes n).osrCount ∧
    (getLane t.lanes n).isrCount = (getLane s.lanes n).isrCount) ∧
  ∀ (es : List Event) (p : Config.Params) (lane n : Fin 4) (pins : Gpio),
    (getLane (afterEvents es (State.atReset p lane pins)).lanes n).osrCount = p.osrCountInit ∧
    (getLane (afterEvents es (State.atReset p lane pins)).lanes n).isrCount = p.isrCountInit

/-- No run ever sets an interrupt flag: all keep the value 0 (R21, R144; the value 0 and the want of any other
writer are the spec's choice D11, log entry 6). -/
def Obligations.InterruptFlagsStayClear : Prop :=
  ∀ (es : List Event) (p : Config.Params) (lane : Fin 4) (pins : Gpio),
    (afterEvents es (State.atReset p lane pins)).irq = 0

/-! ## The delay charge -/

/-- With SIDESET_COUNT not 0 every instruction faults with UnsupportedInstruction before it does anything: only the
low 5 - SIDESET_COUNT bits of `ds` are charged, for 5 nothing is, above 5 the delay is left open (R94, R161, R164;
that the delay is stored before the fault is log entry 19, D20 and the values above 7 are log entries 12 and 35, the
latch is D8, log entry 10). -/
def Obligations.SideSetFaultComesFirst : Prop :=
  ∀ (i : Instr) (s : State), sidesetCount s ≠ 0 →
    ∃ t, exec i s = .next t ∧
      t = { s with
            halted := some .unsupportedInstruction, pendingDelay := t.pendingDelay, freeIdx := t.freeIdx } ∧
      (sidesetCount s < 5 → t.pendingDelay.toNat = i.ds.toNat % 2 ^ (5 - sidesetCount s)) ∧
      (sidesetCount s = 5 → t.pendingDelay = s.pendingDelay)

/-- With SIDESET_COUNT 0 every instruction leaves `pending_delay` = `ds`, stalled, skipped or faulted ones too; only
a held WAIT leaves it as it was (R93, R94, R110, R122, R164; the hold is D7, log entry 11). -/
def Obligations.DelayIsChargedInEveryCase : Prop :=
  ∀ (i : Instr) (s t : State), s.sideSetOff → exec i s = .next t →
    t.pendingDelay = i.ds ∨ (i.kind = .wait ∧ t = s)

/-- An encoding that R85 does not list as faulting faults on two grounds only: a nonblocking PUSH on a full RX FIFO, and
a SET PINS or PINDIRS with SET_COUNT above 32, which a field of five bits or fewer cannot hold; an encoding it lists
faults on every state, with another kind of a Step and the delay charged (R85, R161, R164; which kind, the statements
of the single instructions say). Full is four words or more, the model's reading (log entry 31); OutOfRange is D16 with
log entry 35; the latch is D8, log entry 10. -/
def Obligations.FaultsAreExactlyTheListed : Prop :=
  ∀ (i : Instr) (s : State), s.sideSetOff →
    (i.executable = true → ∀ t, s.halted = none → exec i s = .next t → t.halted ≠ none →
      (t.halted = some .fifoFull ∧ (∃ ds ifFull, i = .push ds ifFull false) ∧ 4 ≤ (active s).rxf.length) ∨
      (t.halted = some (.outOfRange (configured s .setCount)) ∧ 32 < configured s .setCount ∧
        ∃ ds data, i = .setPins ds data ∨ i = .setPindirs ds data)) ∧
    (i.executable = false → ∃ k : Fault, k.fromStep s.layout s.enums = true ∧ k ≠ .fifoFull ∧
      (∀ n, k ≠ .outOfRange n) ∧ exec i s = .next (s.faulted i.ds k))

/-! ## Program counter -/

/-- `IncPc()` goes from any index to the next, from 31 to 0, and changes nothing else; WRAP_TOP plays no part
(R13). -/
def Obligations.IncPcWrapsFromLastIndex : Prop :=
  ∀ s : State, (active (incPc s)).pc.toNat = ((active s).pc.toNat + 1) % 32 ∧
    incPc s = setActive s { active s with pc := (active (incPc s)).pc }

/-! ## JMP -/

/-- JMP Always charges its delay and goes to its address (R100, R101). -/
def Obligations.JmpAlwaysGoesToAddress : Prop :=
  ∀ (s : State) (ds a : Five), s.sideSetOff →
    exec (.jmpAlways ds a) s = .next (s.completed ds { active s with pc := a })

/-- JMP !X and JMP !Y: taken when all 32 bits of the register are 0, else `pc` advances; neither register changes
(R100, R102, R104). -/
def Obligations.JmpOnZeroScratch : Prop :=
  ∀ (s : State) (ds a : Five), s.sideSetOff →
    exec (.jmpNotX ds a) s =
      .next (s.completed ds (if (active s).x = 0 then { active s with pc := a } else (active s).advanced)) ∧
    exec (.jmpNotY ds a) s =
      .next (s.completed ds (if (active s).y = 0 then { active s with pc := a } else (active s).advanced))

/-- JMP X-- and JMP Y--: taken when the register was not 0 before; the register is decremented in every case, and 0
becomes 0xFFFFFFFF (R100, R103, R105; the wrap is the spec's choice D6, log entry 15). -/
def Obligations.JmpPostDecrement : Prop :=
  ∀ (s : State) (ds a : Five), s.sideSetOff →
    (∃ v : Word, v.toNat = ((active s).x.toNat + (2 ^ 32 - 1)) % 2 ^ 32 ∧
      exec (.jmpXDec ds a) s =
        .next (s.completed ds { active s with x := v, pc := if (active s).x = 0 then (active s).pc + 1 else a })) ∧
    (∃ v : Word, v.toNat = ((active s).y.toNat + (2 ^ 32 - 1)) % 2 ^ 32 ∧
      exec (.jmpYDec ds a) s =
        .next (s.completed ds { active s with y := v, pc := if (active s).y = 0 then (active s).pc + 1 else a }))

/-- JMP X!=Y: taken when the registers differ in any of their 32 bits (R100, R106). -/
def Obligations.JmpOnDifferingScratch : Prop :=
  ∀ (s : State) (ds a : Five), s.sideSetOff →
    exec (.jmpXNeY ds a) s =
      .next (s.completed ds (if (active s).x = (active s).y then (active s).advanced else { active s with pc := a }))

/-- JMP PIN: taken when the value bit of the pin JMP_PIN is 1, whatever its output-enable (R100, R107; D27, log entry 21). -/
def Obligations.JmpOnConfiguredPin : Prop :=
  ∀ (s : State) (ds a : Five), s.sideSetOff →
    exec (.jmpPin ds a) s =
      .next (s.completed ds (if s.gpio.value.getLsbD (configured s .jmpPin % 32) = true
        then { active s with pc := a } else (active s).advanced))

/-- JMP !OSRE: taken when `osr_count` has reached the raw PULL_THRESH field (R100, R108; that 0 is 0 is the spec's
choice D26, log entry 14). -/
def Obligations.JmpOnOutputBitCount : Prop :=
  ∀ (s : State) (ds a : Five), s.sideSetOff →
    exec (.jmpNotOsre ds a) s =
      .next (s.completed ds (if (active s).osrCount.val < configured s .pullThresh
        then (active s).advanced else { active s with pc := a }))

/-- What JMP and WAIT leave unchanged, in every outcome: all of the active lane but `pc` and, for X-- and Y--, that
register; the pin array; everything no Step writes; every byte of the bank; the latch too, unless the instruction
faults (R11, R98, R100, R110). -/
def Obligations.JmpAndWaitFrame : Prop :=
  ∀ (i : Instr) (s t : State), i.kind = .jmp ∨ i.kind = .wait → exec i s = .next t →
    ((∀ ds a, i ≠ .jmpXDec ds a) → (active t).x = (active s).x) ∧
    ((∀ ds a, i ≠ .jmpYDec ds a) → (active t).y = (active s).y) ∧
    (active t).osr = (active s).osr ∧ (active t).osrCount = (active s).osrCount ∧
    (active t).isr = (active s).isr ∧ (active t).isrCount = (active s).isrCount ∧
    (active t).txf = (active s).txf ∧ (active t).rxf = (active s).rxf ∧
    t.gpio = s.gpio ∧ s.sameUntouched t ∧ (∀ a, bankByte t.mem a = bankByte s.mem a) ∧
    (s.sideSetOff → i.executable = true → t.halted = s.halted)

/-! ## WAIT -/

/-- WAIT GPIO: when the value bit of the absolute pin is the polarity, the delay is charged and `pc` advances; when
it is not, nothing at all changes (R110, R111; that an unmet WAIT is held is the spec's choice D7, log entry 11). -/
def Obligations.WaitGpioCompletesOrHolds : Prop :=
  ∀ (s : State) (ds : Five) (polarity : Bool) (index : Five), s.sideSetOff →
    exec (.waitGpio ds polarity index) s =
      .next (if s.gpio.value.getLsbD index.toNat = polarity then s.completed ds (active s).advanced else s)

/-- WAIT PIN: the same on the pin (index + IN_BASE) mod 32 (R110, R112; D7, log entry 11). -/
def Obligations.WaitPinCompletesOrHolds : Prop :=
  ∀ (s : State) (ds : Five) (polarity : Bool) (index : Five), s.sideSetOff →
    exec (.waitPin ds polarity index) s =
      .next (if s.gpio.value.getLsbD ((index.toNat + configured s .inBase) % 32) = polarity
        then s.completed ds (active s).advanced else s)

/-- WAIT IRQ: the same on the flag of an index below 8, which is read and not cleared; an index of 8 or more is
IndexOutOfRange (R110, R113; D7, log entry 11; the latch is D8, log entry 10). -/
def Obligations.WaitIrqCompletesHoldsOrFaults : Prop :=
  ∀ (s : State) (ds : Five) (polarity : Bool) (index : Five), s.sideSetOff →
    (index.toNat < 8 → exec (.waitIrq ds polarity index) s =
      .next (if s.irq.getLsbD index.toNat = polarity then s.completed ds (active s).advanced else s)) ∧
    (8 ≤ index.toNat → exec (.waitIrq ds polarity index) s = .next (s.faulted ds (.indexOutOfRange index)))

/-- WAIT with the Reserved source: the delay is charged, then UnsupportedInstruction (R110, R114; the latch is D8, log
entry 10). -/
def Obligations.WaitReservedSourceFaults : Prop :=
  ∀ (s : State) (ds : Five) (polarity : Bool) (index : Five), s.sideSetOff →
    exec (.waitRsvd ds polarity index) s = .next (s.faulted ds .unsupportedInstruction)

/-- A Step is `Held` exactly when it fetches a WAIT on a pin, an offset pin or a flag below 8, with SIDESET_COUNT 0, whose
polled bit is not the polarity, and `Ok` when it is; no other Step is ever `Held`, and a held Step leaves the block as
it was (R90, R115, R172; D7, log entry 11). -/
def Obligations.HeldExactlyWhenPollDiffers : Prop :=
  ∀ s : State, s.atFetch →
    (verdict s = some .held →
      s.fetched.kind = .wait ∧ s.sideSetOff ∧ s.fetched.executable = true ∧ step s = .next s) ∧
    (s.sideSetOff → ∀ ds polarity index,
      (s.fetched = .waitGpio ds polarity index →
        verdict s = some (if s.gpio.value.getLsbD index.toNat = polarity then .ok else .held)) ∧
      (s.fetched = .waitPin ds polarity index →
        verdict s = some (if s.gpio.value.getLsbD ((index.toNat + configured s .inBase) % 32) = polarity
          then .ok else .held)) ∧
      (s.fetched = .waitIrq ds polarity index → index.toNat < 8 →
        verdict s = some (if s.irq.getLsbD index.toNat = polarity then .ok else .held)))

/-- `WAIT 1 IRQ n` never completes: with the flags clear, as they always are, any number of Steps leaves the block
where it is (R113, R186; log entries 6 and 11). -/
def Obligations.WaitForSetFlagHoldsForever : Prop :=
  ∀ (s : State) (ds index : Five) (n : Nat), s.atFetch → s.sideSetOff → s.irq = 0 →
    s.fetched = .waitIrq ds true index → index.toNat < 8 → Host.Core.run core n s = .next s

/-! ## PUSH and PULL -/

/-- PUSH with room in the RX FIFO and no threshold skip: `isr` goes onto the young end, `isr` is cleared, `pc`
advances, and `isr_count` stays (R120, R123; the raw threshold is D26, log entry 14). -/
def Obligations.PushMovesIsrToRxFifo : Prop :=
  ∀ (s : State) (ds : Five) (ifFull block : Bool), s.sideSetOff →
    (ifFull = false ∨ configured s .pushThresh ≤ (active s).isrCount.val) → (active s).rxf.length < 4 →
    exec (.push ds ifFull block) s =
      .next (s.completed ds
        { (active s).advanced with rxf := (active s).rxf ++ [(active s).isr], isr := 0 })

/-- PUSH IFFULL below its threshold skips, even when the FIFO is full (D5, log entry 14); a blocking PUSH on a full
RX FIFO that does not skip stalls with the delay charged (R120, R122, R123). Full is four words or more, the model's
reading (log entry 31); the raw threshold is D26, log entry 14. -/
def Obligations.PushSkipsOrStalls : Prop :=
  ∀ (s : State) (ds : Five), s.sideSetOff →
    (∀ block, (active s).isrCount.val < configured s .pushThresh →
      exec (.push ds true block) s = .next (s.completed ds (active s).advanced)) ∧
    (∀ ifFull, (ifFull = false ∨ configured s .pushThresh ≤ (active s).isrCount.val) →
      4 ≤ (active s).rxf.length →
      exec (.push ds ifFull true) s = .next { s with pendingDelay := ds })

/-- A nonblocking PUSH on a full RX FIFO that does not skip is FifoFull: `isr` and the FIFO stay (R120, R155, R164,
R189). Full is four words or more, the model's reading (log entry 31); the raw threshold of the skip is D26, log entry
14; the latch is D8, log entry 10. -/
def Obligations.PushFaultsOnFullFifo : Prop :=
  ∀ (s : State) (ds : Five) (ifFull : Bool), s.sideSetOff →
    (ifFull = false ∨ configured s .pushThresh ≤ (active s).isrCount.val) → 4 ≤ (active s).rxf.length →
    exec (.push ds ifFull false) s = .next (s.faulted ds .fifoFull)

/-- PULL without a threshold skip: the oldest word of a TX FIFO that has one goes to `osr` and leaves the FIFO; on an
empty TX FIFO a nonblocking PULL copies X; `pc` advances, `osr_count` stays (R121, R123; D22 and D26, log entries 20
and 14). -/
def Obligations.PullLoadsOsr : Prop :=
  ∀ (s : State) (ds : Five) (ifEmpty : Bool), s.sideSetOff →
    (ifEmpty = false ∨ configured s .pullThresh ≤ (active s).osrCount.val) →
    (∀ block v q, (active s).txf = v :: q → exec (.pull ds ifEmpty block) s =
      .next (s.completed ds { (active s).advanced with osr := v, txf := q })) ∧
    ((active s).txf = [] → exec (.pull ds ifEmpty false) s =
      .next (s.completed ds { (active s).advanced with osr := (active s).x }))

/-- PULL IFEMPTY below its threshold skips, whatever the FIFO holds (D5, log entry 14); a blocking PULL on an empty
TX FIFO that does not skip stalls with the delay charged (R121, R122, R123). -/
def Obligations.PullSkipsOrStalls : Prop :=
  ∀ (s : State) (ds : Five), s.sideSetOff →
    (∀ block, (active s).osrCount.val < configured s .pullThresh →
      exec (.pull ds true block) s = .next (s.completed ds (active s).advanced)) ∧
    (∀ ifEmpty, (ifEmpty = false ∨ configured s .pullThresh ≤ (active s).osrCount.val) →
      (active s).txf = [] →
      exec (.pull ds ifEmpty true) s = .next { s with pendingDelay := ds })

/-- What PUSH and PULL leave unchanged, in every outcome: X, Y and both bit counters; PUSH also `osr` and the TX FIFO,
PULL also `isr` and the RX FIFO; the pin array; everything no Step writes; every byte of the bank; the latch too,
unless a PUSH faults (R11, R17, R98, R120, R121). -/
def Obligations.PushPullFrame : Prop :=
  ∀ (i : Instr) (s t : State), i.kind = .push ∨ i.kind = .pull → exec i s = .next t →
    (active t).x = (active s).x ∧ (active t).y = (active s).y ∧
    (active t).osrCount = (active s).osrCount ∧ (active t).isrCount = (active s).isrCount ∧
    (i.kind = .push → (active t).osr = (active s).osr ∧ (active t).txf = (active s).txf) ∧
    (i.kind = .pull → (active t).isr = (active s).isr ∧ (active t).rxf = (active s).rxf) ∧
    t.gpio = s.gpio ∧ s.sameUntouched t ∧ (∀ a, bankByte t.mem a = bankByte s.mem a) ∧
    (s.sideSetOff → i.kind = .pull → t.halted = s.halted)

/-! ## IN, OUT, MOV, IRQ -/

/-- IN, OUT, MOV and IRQ charge the delay and then fault with UnsupportedInstruction, for every value of their
fields, and change nothing else (R140 to R144; the latch is D8, log entry 10). -/
def Obligations.UnimplementedKindsFault : Prop :=
  ∀ (i : Instr) (s : State), i.kind = .inBits ∨ i.kind = .outBits ∨ i.kind = .mov ∨ i.kind = .irq →
    s.sideSetOff → exec i s = .next (s.faulted i.ds .unsupportedInstruction)

/-! ## SET -/

/-- SET X and SET Y: all 32 bits of the register are written with the zero-extended data, and `pc` advances (R130,
R132, R133; the advance is the spec's choice D4, log entry 13). -/
def Obligations.SetWritesScratch : Prop :=
  ∀ (s : State) (ds data : Five), s.sideSetOff →
    ∃ v : Word, v.toNat = data.toNat ∧
      exec (.setX ds data) s = .next (s.completed ds { (active s).advanced with x := v }) ∧
      exec (.setY ds data) s = .next (s.completed ds { (active s).advanced with y := v })

/-- SET PINS: of the value plane, pin (SET_BASE + i) mod 32 takes bit i of the zero-extended data for i below
SET_COUNT, every other pin keeps its value; the output-enable plane stays and is not consulted; `pc` advances
(R130, R131; D4, log entry 13). A SET_COUNT above 32, which a field of five bits or fewer cannot hold, is OutOfRange
before any pin changes (R58; D16, log entries 21 and 35; the latch is D8, log entry 10). -/
def Obligations.SetPinsWritesValuePlane : Prop :=
  ∀ (s : State) (ds data : Five), s.sideSetOff →
    (configured s .setCount ≤ 32 → ∃ plane : Word,
      exec (.setPins ds data) s =
        .next { s.completed ds (active s).advanced with gpio := { value := plane, oe := s.gpio.oe } } ∧
      (∀ i, i < configured s .setCount →
        plane.getLsbD ((configured s .setBase + i) % 32) = data.getLsbD i) ∧
      ∀ p, p < 32 → (∀ i, i < configured s .setCount → p ≠ (configured s .setBase + i) % 32) →
        plane.getLsbD p = s.gpio.value.getLsbD p) ∧
    (32 < configured s .setCount →
      exec (.setPins ds data) s = .next (s.faulted ds (.outOfRange (configured s .setCount))))

/-- SET PINDIRS: the same on the output-enable plane, and the value plane stays (R58, R130, R134; D4 and D16, log
entries 10, 13, 21 and 35). -/
def Obligations.SetPindirsWritesEnablePlane : Prop :=
  ∀ (s : State) (ds data : Five), s.sideSetOff →
    (configured s .setCount ≤ 32 → ∃ plane : Word,
      exec (.setPindirs ds data) s =
        .next { s.completed ds (active s).advanced with gpio := { value := s.gpio.value, oe := plane } } ∧
      (∀ i, i < configured s .setCount →
        plane.getLsbD ((configured s .setBase + i) % 32) = data.getLsbD i) ∧
      ∀ p, p < 32 → (∀ i, i < configured s .setCount → p ≠ (configured s .setBase + i) % 32) →
        plane.getLsbD p = s.gpio.oe.getLsbD p) ∧
    (32 < configured s .setCount →
      exec (.setPindirs ds data) s = .next (s.faulted ds (.outOfRange (configured s .setCount))))

/-- SET with a Reserved destination: the delay is charged, then UnsupportedDestination with the number
ENUM_MAP gives that destination; nothing else is written (R130, R135, R153; the numbers are log entry 3, the latch is
D8, log entry 10). -/
def Obligations.SetReservedDestinationFaults : Prop :=
  ∀ (s : State) (ds data : Five), s.sideSetOff →
    exec (.setRsvd3 ds data) s = .next (s.faulted ds (.unsupportedDestination s.enums.set.rsvd3)) ∧
    exec (.setRsvd5 ds data) s = .next (s.faulted ds (.unsupportedDestination s.enums.set.rsvd5)) ∧
    exec (.setRsvd6 ds data) s = .next (s.faulted ds (.unsupportedDestination s.enums.set.rsvd6)) ∧
    exec (.setRsvd7 ds data) s = .next (s.faulted ds (.unsupportedDestination s.enums.set.rsvd7))

/-- What SET, IN, OUT, MOV and IRQ leave unchanged, in every outcome: all of the active lane but `pc` and, for SET X
and SET Y, that register; the value plane but for SET PINS and the output-enable plane but for SET PINDIRS;
everything no Step writes; every byte of the bank; the latch too, unless the instruction faults (R11, R98, R130,
R140). -/
def Obligations.SetAndUnimplementedFrame : Prop :=
  ∀ (i : Instr) (s t : State),
    i.kind = .set ∨ i.kind = .inBits ∨ i.kind = .outBits ∨ i.kind = .mov ∨ i.kind = .irq → exec i s = .next t →
    ((∀ ds d, i ≠ .setX ds d) → (active t).x = (active s).x) ∧
    ((∀ ds d, i ≠ .setY ds d) → (active t).y = (active s).y) ∧
    (active t).osr = (active s).osr ∧ (active t).osrCount = (active s).osrCount ∧
    (active t).isr = (active s).isr ∧ (active t).isrCount = (active s).isrCount ∧
    (active t).txf = (active s).txf ∧ (active t).rxf = (active s).rxf ∧
    ((∀ ds d, i ≠ .setPins ds d) → t.gpio.value = s.gpio.value) ∧
    ((∀ ds d, i ≠ .setPindirs ds d) → t.gpio.oe = s.gpio.oe) ∧
    s.sameUntouched t ∧ (∀ a, bankByte t.mem a = bankByte s.mem a) ∧
    (s.sideSetOff → i.executable = true → configured s .setCount ≤ 32 → t.halted = s.halted)

/-! ## Pin array -/

/-- A ranged write of up to 32 pins puts bit i of `bits` on pin (base + i) mod 32 for i below the count and keeps
every other pin; the value write leaves the output-enable plane and the enable write the value plane (R56, R57). -/
def Obligations.RangedWritePlacesBits : Prop :=
  ∀ (base count : Nat) (bits : Word) (g : Gpio), count ≤ 32 →
    ∃ g' e', gpioWriteRange base count bits g = .ok g' ∧ gpioWriteEnableRange base count bits g = .ok e' ∧
      g'.oe = g.oe ∧ e'.value = g.value ∧
      (∀ i, i < count → g'.value.getLsbD ((base + i) % 32) = bits.getLsbD i ∧
        e'.oe.getLsbD ((base + i) % 32) = bits.getLsbD i) ∧
      ∀ p, p < 32 → (∀ i, i < count → p ≠ (base + i) % 32) →
        g'.value.getLsbD p = g.value.getLsbD p ∧ e'.oe.getLsbD p = g.oe.getLsbD p

/-- A ranged write of more than 32 pins fails with OutOfRange before any pin changes (R58; the spec's choice D16, log
entry 21). -/
def Obligations.OversizedRangedWriteFails : Prop :=
  ∀ (base count : Nat) (bits : Word) (g : Gpio), 32 < count →
    gpioWriteRange base count bits g = .error (.outOfRange count) ∧
    gpioWriteEnableRange base count bits g = .error (.outOfRange count)

/-- The environment sets one pin's value bit, whatever its output-enable, and changes nothing else of the block (R55,
R59; the port is the spec's own, D14, log entry 17; the read is D27, log entry 21). -/
def Obligations.EnvironmentDrivesOnePin : Prop :=
  ∀ (s : State) (p : Nat) (v : Bool),
    ∃ g : Gpio, hostOp (.drivePin p v) s = .done { s with gpio := g } none ∧
      g.oe = s.gpio.oe ∧ gpioRead p g = v ∧ ∀ q, q % 32 ≠ p % 32 → gpioRead q g = gpioRead q s.gpio

/-! ## The register bank and the host -/

/-- A register the host writes reads back as written, every other register reads as before, and nothing but the bank
changes: no FIFO, flag, pin or lane (R44, R45; D9, log entry 16). -/
def Obligations.RegisterWriteReadsBack : Prop :=
  ∀ (s : State) (r : Reg) (v : Word), Memory.wf s.mem = true →
    ∃ m, hostOp (.memWrite (regOffset r) 4 v) s = .done { s with mem := m } none ∧
      hostOp (.memRead (regOffset r) 4) { s with mem := m } = .done { s with mem := m } (some v) ∧
      ∀ r', r' ≠ r → bankWord m (regOffset r') = bankWord s.mem (regOffset r')

/-- An access that is not an aligned 32-bit word of the bank is refused and changes nothing (R44; the spec's choice
D15, log entry 9). -/
def Obligations.OtherAccessesAreRefused : Prop :=
  ∀ (s : State) (addr width : Nat) (v : Word), width ≠ 4 ∨ addr % 4 ≠ 0 ∨ 0x140 < addr →
    hostOp (.memRead addr width) s = .refused ∧ hostOp (.memWrite addr width v) s = .refused ∧
    afterEvent (.host (.memWrite addr width v)) s = s

/-- A field write, in any layout R22 admits: the register holds `SetField` of its old word, so that the field reads as
the value cut to its width and every bit outside it is kept, unnamed bits too; every other register and every other
field of every lane is as before; nothing but the bank changes (R47, R48; D9, log entry 16; what an admitted layout is,
log entry 34). -/
def Obligations.FieldWriteKeepsOtherFields : Prop :=
  ∀ (s : State) (lane : Fin 4) (f : Config.FieldName) (n : Nat), Memory.wf s.mem = true →
    Config.layoutOk s.layout = true →
    let p := fieldPos s.layout f
    let a := regOffset (fieldReg lane f)
    ∃ m, hostOp (.fieldWrite lane.val f n) s = .done { s with mem := m } none ∧
      bankWord m a = setField (bankWord s.mem a) p n ∧
      laneField { s with mem := m } lane f = n % 2 ^ p.width ∧
      (∀ i, i < 32 → (i < p.offset ∨ p.offset + p.width ≤ i) →
        (bankWord m a).getLsbD i = (bankWord s.mem a).getLsbD i) ∧
      (∀ r, r ≠ fieldReg lane f → bankWord m (regOffset r) = bankWord s.mem (regOffset r)) ∧
      ∀ (other : Fin 4) (g : Config.FieldName), (fieldReg other g ≠ fieldReg lane f ∨ g ≠ f) →
        laneField { s with mem := m } other g = laneField s other g

/-- `set_instruction_word` with an index of 0 to 31 stores the zero-extended word at 0x048 + 4*index and changes no other
register and nothing else of the block; with a greater index it fails with OutOfRange and changes nothing (R43, R49;
the failure is D19, log entry 22). -/
def Obligations.ProgramLoadStoresOneWord : Prop :=
  ∀ (s : State) (index : Nat) (value : InstrWord), Memory.wf s.mem = true →
    (index ≤ 31 → ∃ m, hostOp (.setInstructionWord index value) s = .done { s with mem := m } none ∧
      bankWord m (0x048 + 4 * index) = value.setWidth 32 ∧
      ∀ r, regOffset r ≠ 0x048 + 4 * index → bankWord m (regOffset r) = bankWord s.mem (regOffset r)) ∧
    (31 < index → hostOp (.setInstructionWord index value) s = .failed (.outOfRange index) ∧
      afterEvent (.host (.setInstructionWord index value)) s = s)

/-- A lane selector of 0 to 3 reaches its lane: a register of the group is read and written at its place from
0x0C8 + 0x18*n, a field is read as an unsigned number below 2 to its width without any other effect, and construction
yields the reset state of that lane on the given pin array (R42, R44, R47, R180; what parameters construction takes,
log entry 34, the storage, D9, log entry 16). -/
def Obligations.LaneSelectorsReachTheirLane : Prop :=
  ∀ (s : State) (lane : Fin 4) (r : SmReg) (v : Word) (f : Config.FieldName) (p : Config.Params) (pins : Gpio),
    let a := 0x0C8 + 0x18 * lane.val + smRegOffset r
    hostOp (.smRead lane.val r) s = .done s (some (bankWord s.mem a)) ∧
    (Memory.wf s.mem = true → ∃ m, hostOp (.smWrite lane.val r v) s = .done { s with mem := m } none ∧
      bankWord m a = v ∧ ∀ r', r' ≠ .sm lane r → bankWord m (regOffset r') = bankWord s.mem (regOffset r')) ∧
    (∃ w : Word, hostOp (.fieldRead lane.val f) s = .done s (some w) ∧
      w.toNat = (bankWord s.mem (regOffset (fieldReg lane f))).toNat / 2 ^ (fieldPos s.layout f).offset %
        2 ^ (fieldPos s.layout f).width) ∧
    (p.ok = true → construct p lane.val pins = .done (State.atReset p lane pins) none)

/-- A host operation with a lane selector outside 0 to 3 fails with InvalidLaneIndex and changes nothing, and
construction with one creates no block (R66). -/
def Obligations.BadLaneSelectorFails : Prop :=
  ∀ (s : State) (n v : Nat) (r : SmReg) (f : Config.FieldName) (w : Word) (p : Config.Params) (pins : Gpio), 4 ≤ n →
    construct p n pins = .failed (.invalidLaneIndex n) ∧
    ∀ op ∈ [HostOp.smRead n r, .smWrite n r w, .fieldRead n f, .fieldWrite n f v, .txPush n w, .rxPop n],
      hostOp op s = .failed (.invalidLaneIndex n) ∧ afterEvent (.host op) s = s

/-- A word the host pushes onto a TX FIFO of fewer than four words stands at its young end and nothing else changes, so
that up to four words queue in their order; a push on four words or more, the model's reading of full (log entry 31),
fails; a pop of the RX FIFO gives its oldest word and changes nothing else, a pop of an empty one fails (R63, R64; the
ports and their order are the spec's choices D10 and D22, log entries 17 and 20). -/
def Obligations.HostFifoPortsKeepOrder : Prop :=
  ∀ (s : State) (lane : Fin 4),
    (∀ v, (getLane s.lanes lane).txf.length < 4 → hostOp (.txPush lane.val v) s =
      .done { s with
        lanes := setLane s.lanes lane
          { getLane s.lanes lane with txf := (getLane s.lanes lane).txf ++ [v] } } none) ∧
    (∀ ws : List Word, ws.length ≤ 4 → (getLane s.lanes lane).txf = [] →
      (getLane (afterEvents (ws.map fun w => .host (.txPush lane.val w)) s).lanes lane).txf = ws) ∧
    (∀ w, 4 ≤ (getLane s.lanes lane).txf.length → hostOp (.txPush lane.val w) s = .failed .fifoFull) ∧
    (∀ v q, (getLane s.lanes lane).rxf = v :: q → hostOp (.rxPop lane.val) s =
      .done { s with lanes := setLane s.lanes lane { getLane s.lanes lane with rxf := q } } (some v)) ∧
    ((getLane s.lanes lane).rxf = [] → hostOp (.rxPop lane.val) s = .failed .fifoEmpty)

/-! ## Runs -/

/-- The run loop of a block that is not halted ends at the first Step that faults and returns the fault that Step
latched; a run that returns none has taken all its Steps (R96; the latch is D8, log entry 10). -/
def Obligations.RunLoopEndsAtFirstFault : Prop :=
  ∀ (s t : State) (n : Nat), s.halted = none →
    (∀ k, runLoop n s = (t, some k) →
      ∃ m u, m < n ∧ Host.Core.run core m s = .next u ∧ u.halted = none ∧ step u = .next t ∧ t.halted = some k) ∧
    (runLoop n s = (t, none) → t.halted = none ∧ Host.Core.run core n s = .next t)

/-- On a board of several blocks, an action of one leaves every other block's own state as it was and does to the pin
array and to its block what it does alone (R65). -/
def Obligations.BlocksShareOnlyThePinArray : Prop :=
  ∀ (b : Board) (i : Nat) (e : Event) (s : State), boardBlock b i = some s →
    (boardEvent i e b).gpio = (afterEvent e s).gpio ∧
    boardBlock (boardEvent i e b) i = some (afterEvent e s) ∧
    ∀ j, j ≠ i → boardBlock (boardEvent i e b) j =
      (boardBlock b j).map fun u => { u with gpio := (afterEvent e s).gpio }

/-! ## Reset -/

/-- After reset, with any active lane and any open parameters with an admitted layout: every listed field of every lane
has the value the source gives (R31) and every other named field 0; with the default layout the registers read as
R31's table says (the zeros are the spec's choice D13, log entry 8; the default layout is log entry 2, an admitted one
log entry 34). -/
def Obligations.ResetBankContents : Prop :=
  ∀ (p : Config.Params) (lane n : Fin 4) (pins : Gpio), Config.layoutOk p.layout = true →
    let s := State.atReset p lane pins
    laneField s n .txEmpty = 0xF ∧ laneField s n .rxEmpty = 0xF ∧ laneField s n .clkdivInt = 1 ∧
    laneField s n .wrapTop = 0x1F ∧ laneField s n .inShiftdir = 1 ∧ laneField s n .outShiftdir = 1 ∧
    laneField s n .setCount = 5 ∧
    (∀ f ∈ [Config.FieldName.jmpPin, .pushThresh, .pullThresh, .outBase, .setBase, .inBase, .sidesetCount],
      laneField s n f = 0) ∧
    (p.layout = defaultLayout → ∀ r : Reg, bankWord s.mem (regOffset r) =
      match r with
      | .fstat => 0x0F000F00
      | .sm _ .clkdiv => 0x00010000
      | .sm _ .execctrl => 0x0001F000
      | .sm _ .shiftctrl => 0x000C0000
      | .sm _ .pinctrl => 0x14000000
      | _ => 0)

/-- A block just constructed, with any parameters it can be constructed with, starts at index 0 with its first Step
fetching, its FIFOs empty and no flag set; its first Step is the self-jump of the unloaded memory, for ever (R32, R33,
R101, R181, R183; the values are the spec's choices D11, D12 and D13, log entries 6 and 8; the parameters, log entry
34). -/
def Obligations.UnloadedBlockJumpsToItself : Prop :=
  ∀ (p : Config.Params) (lane : Fin 4) (pins : Gpio) (k : Nat), p.ok = true →
    let s := State.atReset p lane pins
    s.atFetch ∧ s.irq = 0 ∧ (∀ n, (getLane s.lanes n).pc = 0 ∧ (getLane s.lanes n).txf = [] ∧
      (getLane s.lanes n).rxf = []) ∧
    Host.Core.run core k s = .next s
end

