-- ==== Sys2Proof/Laws/State.lean ====
section
/-! SUPPORT. One lemma per field per update of the state, so that no later proof unfolds a record update. -/

namespace Sys2Proof.Machine

/-! ## Lane records -/

@[simp] theorem getLane_setLane_self (l : Lanes) (n : Fin 4) (r : Lane) : getLane (setLane l n r) n = r := by
  fin_cases n <;> rfl

theorem getLane_setLane_other (l : Lanes) (r : Lane) {n m : Fin 4} (h : m ≠ n) :
    getLane (setLane l n r) m = getLane l m := by
  fin_cases n <;> fin_cases m <;> first | rfl | exact absurd rfl h

@[simp] theorem setLane_getLane (l : Lanes) (n : Fin 4) : setLane l n (getLane l n) = l := by
  fin_cases n <;> rfl

@[simp] theorem setLane_setLane (l : Lanes) (n : Fin 4) (r r' : Lane) :
    setLane (setLane l n r) n r' = setLane l n r' := by
  fin_cases n <;> rfl

/-! ## The active lane -/

@[simp] theorem active_setActive (s : State) (r : Lane) : active (setActive s r) = r :=
  getLane_setLane_self s.lanes s.activeLane r

@[simp] theorem setActive_active (s : State) : setActive s (active s) = s := by
  simp [setActive, active]

@[simp] theorem setActive_setActive (s : State) (r r' : Lane) :
    setActive (setActive s r) r' = setActive s r' := by
  simp [setActive]

theorem getLane_setActive_other (s : State) (r : Lane) {n : Fin 4} (h : n ≠ s.activeLane) :
    getLane (setActive s r).lanes n = getLane s.lanes n :=
  getLane_setLane_other s.lanes r h

@[simp] theorem setActive_activeLane (s : State) (r : Lane) : (setActive s r).activeLane = s.activeLane := rfl
@[simp] theorem setActive_layout (s : State) (r : Lane) : (setActive s r).layout = s.layout := rfl
@[simp] theorem setActive_enums (s : State) (r : Lane) : (setActive s r).enums = s.enums := rfl
@[simp] theorem setActive_pendingDelay (s : State) (r : Lane) : (setActive s r).pendingDelay = s.pendingDelay := rfl
@[simp] theorem setActive_irq (s : State) (r : Lane) : (setActive s r).irq = s.irq := rfl
@[simp] theorem setActive_mem (s : State) (r : Lane) : (setActive s r).mem = s.mem := rfl
@[simp] theorem setActive_halted (s : State) (r : Lane) : (setActive s r).halted = s.halted := rfl
@[simp] theorem setActive_gpio (s : State) (r : Lane) : (setActive s r).gpio = s.gpio := rfl
@[simp] theorem setActive_freeIdx (s : State) (r : Lane) : (setActive s r).freeIdx = s.freeIdx := rfl

@[simp] theorem setActive_configured (s : State) (r : Lane) (f : Config.FieldName) :
    configured (setActive s r) f = configured s f := rfl

/-! ## Program counter and scratch registers -/

@[simp] theorem active_incPc (s : State) : active (incPc s) = { active s with pc := (active s).pc + 1 } := by
  simp [incPc]

@[simp] theorem active_decX (s : State) : active (decX s) = { active s with x := (active s).x - 1 } := by
  simp [decX]

@[simp] theorem active_decY (s : State) : active (decY s) = { active s with y := (active s).y - 1 } := by
  simp [decY]

@[simp] theorem incPc_activeLane (s : State) : (incPc s).activeLane = s.activeLane := rfl
@[simp] theorem incPc_layout (s : State) : (incPc s).layout = s.layout := rfl
@[simp] theorem incPc_enums (s : State) : (incPc s).enums = s.enums := rfl
@[simp] theorem incPc_pendingDelay (s : State) : (incPc s).pendingDelay = s.pendingDelay := rfl
@[simp] theorem incPc_irq (s : State) : (incPc s).irq = s.irq := rfl
@[simp] theorem incPc_mem (s : State) : (incPc s).mem = s.mem := rfl
@[simp] theorem incPc_halted (s : State) : (incPc s).halted = s.halted := rfl
@[simp] theorem incPc_gpio (s : State) : (incPc s).gpio = s.gpio := rfl
@[simp] theorem incPc_freeIdx (s : State) : (incPc s).freeIdx = s.freeIdx := rfl

/-! ## The pending delay -/

@[simp] theorem setDelay_activeLane (d : BitVec 5) (s : State) : (setDelay d s).activeLane = s.activeLane := rfl
@[simp] theorem setDelay_layout (d : BitVec 5) (s : State) : (setDelay d s).layout = s.layout := rfl
@[simp] theorem setDelay_enums (d : BitVec 5) (s : State) : (setDelay d s).enums = s.enums := rfl
@[simp] theorem setDelay_lanes (d : BitVec 5) (s : State) : (setDelay d s).lanes = s.lanes := rfl
@[simp] theorem setDelay_pendingDelay (d : BitVec 5) (s : State) : (setDelay d s).pendingDelay = d := rfl
@[simp] theorem setDelay_irq (d : BitVec 5) (s : State) : (setDelay d s).irq = s.irq := rfl
@[simp] theorem setDelay_mem (d : BitVec 5) (s : State) : (setDelay d s).mem = s.mem := rfl
@[simp] theorem setDelay_halted (d : BitVec 5) (s : State) : (setDelay d s).halted = s.halted := rfl
@[simp] theorem setDelay_gpio (d : BitVec 5) (s : State) : (setDelay d s).gpio = s.gpio := rfl
@[simp] theorem setDelay_freeIdx (d : BitVec 5) (s : State) : (setDelay d s).freeIdx = s.freeIdx := rfl
@[simp] theorem setDelay_setDelay (d e : BitVec 5) (s : State) : setDelay d (setDelay e s) = setDelay d s := rfl
@[simp] theorem setDelay_self (s : State) : setDelay s.pendingDelay s = s := rfl

@[simp] theorem active_setDelay (d : BitVec 5) (s : State) : active (setDelay d s) = active s := rfl

@[simp] theorem laneField_setDelay (d : BitVec 5) (s : State) (n : Fin 4) (f : Config.FieldName) :
    laneField (setDelay d s) n f = laneField s n f := rfl

@[simp] theorem configured_setDelay (d : BitVec 5) (s : State) (f : Config.FieldName) :
    configured (setDelay d s) f = configured s f := rfl

@[simp] theorem setActive_setDelay (d : BitVec 5) (s : State) (r : Lane) :
    setDelay d (setActive s r) = setActive (setDelay d s) r := rfl

/-! ## The delay charge -/

/-- A charge writes the pending delay and, when a free value is drawn, the count of those. -/
theorem chargeDelay_eq (ds : Five) (s : State) :
    chargeDelay ds s =
      { s with pendingDelay := (chargeDelay ds s).pendingDelay, freeIdx := (chargeDelay ds s).freeIdx } := by
  unfold chargeDelay
  dsimp only
  split
  · rfl
  · split <;> rfl

@[simp] theorem chargeDelay_activeLane (ds : Five) (s : State) : (chargeDelay ds s).activeLane = s.activeLane := by
  rw [chargeDelay_eq]
@[simp] theorem chargeDelay_layout (ds : Five) (s : State) : (chargeDelay ds s).layout = s.layout := by
  rw [chargeDelay_eq]
@[simp] theorem chargeDelay_enums (ds : Five) (s : State) : (chargeDelay ds s).enums = s.enums := by
  rw [chargeDelay_eq]
@[simp] theorem chargeDelay_lanes (ds : Five) (s : State) : (chargeDelay ds s).lanes = s.lanes := by
  rw [chargeDelay_eq]
@[simp] theorem chargeDelay_irq (ds : Five) (s : State) : (chargeDelay ds s).irq = s.irq := by
  rw [chargeDelay_eq]
@[simp] theorem chargeDelay_mem (ds : Five) (s : State) : (chargeDelay ds s).mem = s.mem := by
  rw [chargeDelay_eq]
@[simp] theorem chargeDelay_halted (ds : Five) (s : State) : (chargeDelay ds s).halted = s.halted := by
  rw [chargeDelay_eq]
@[simp] theorem chargeDelay_gpio (ds : Five) (s : State) : (chargeDelay ds s).gpio = s.gpio := by
  rw [chargeDelay_eq]

@[simp] theorem active_chargeDelay (ds : Five) (s : State) : active (chargeDelay ds s) = active s := by
  simp [active]

@[simp] theorem configured_chargeDelay (ds : Five) (s : State) (f : Config.FieldName) :
    configured (chargeDelay ds s) f = configured s f := by
  simp [configured, laneField]

end Sys2Proof.Machine
end

