-- ==== Sys2Proof/Laws/Ops.lean ====
section
/-! SUPPORT. One lemma per shared operation that says everything it can do: the provers cite these instead of
unfolding the operation. -/

namespace Sys2Proof.Machine

/-! ## The delay charge (R94) -/

/-- With SIDESET_COUNT 0 the whole of `ds` is charged. -/
theorem chargeDelay_off {ds : Five} {s : State} (h : s.sideSetOff) :
    chargeDelay ds s = setDelay ds s := by
  have h0 : sidesetCount s = 0 := h
  have hd : BitVec.ofNat 5 (ds.toNat % 32) = ds := by
    rw [Nat.mod_eq_of_lt ds.isLt, BitVec.ofNat_toNat]
    exact BitVec.setWidth_eq ds
  simp [chargeDelay, h0, hd]

/-- With SIDESET_COUNT 0 the rest of the instruction runs after the charge. -/
theorem withDelay_off {ds : Five} {s : State} (h : s.sideSetOff) (rest : State → Answer) :
    withDelay ds s rest = rest (setDelay ds s) := by
  rw [← chargeDelay_off h]
  exact if_pos h

/-- With any other SIDESET_COUNT the instruction faults after the charge. -/
theorem withDelay_on {ds : Five} {s : State} (h : sidesetCount s ≠ 0) (rest : State → Answer) :
    withDelay ds s rest = raise .unsupportedInstruction (chargeDelay ds s) :=
  if_neg h

/-- What the charge leaves for SIDESET_COUNT 1 to 4 (R94). -/
theorem chargeDelay_narrow {ds : Five} {s : State} (h : sidesetCount s < 5) :
    (chargeDelay ds s).pendingDelay = BitVec.ofNat 5 (ds.toNat % 2 ^ (5 - sidesetCount s)) := by
  simp [chargeDelay, h]

/-- What the charge leaves for SIDESET_COUNT 5: everything (R94). -/
theorem chargeDelay_five {ds : Five} {s : State} (h : sidesetCount s = 5) : chargeDelay ds s = s := by
  simp [chargeDelay, h]

/-! ## Program counter (R14) -/

/-- A five-bit target is always in range. -/
theorem setPc_five (t : Five) (s : State) : setPc t.toNat s = .next (setActive s { active s with pc := t }) := by
  have h : ¬ 31 < t.toNat := by have := t.isLt; omega
  simp [setPc, h]

/-! ## FIFOs (R60, R61, R62) -/

theorem rxFull_iff (s : State) : rxFull s = true ↔ 4 ≤ (active s).rxf.length := decide_eq_true_iff

theorem txEmpty_iff (s : State) : txEmpty s = true ↔ (active s).txf = [] := List.isEmpty_iff

theorem pushRx_room {v : Word} {s : State} (h : (active s).rxf.length < Config.fifoDepth) :
    pushRx v s = .ok (setActive s { active s with rxf := (active s).rxf ++ [v] }) := by
  simp [pushRx, fifoPush, h]

theorem pushRx_full {v : Word} {s : State} (h : Config.fifoDepth ≤ (active s).rxf.length) :
    pushRx v s = .error .fifoFull := by
  simp [pushRx, fifoPush, Nat.not_lt.mpr h]

theorem popTx_cons {s : State} {v : Word} {q : List Word} (h : (active s).txf = v :: q) :
    popTx s = .ok (v, setActive s { active s with txf := q }) := by
  simp [popTx, fifoPop, h]

theorem popTx_nil {s : State} (h : (active s).txf = []) : popTx s = .error .fifoEmpty := by
  simp [popTx, fifoPop, h]

/-! ## What an operation leaves alone (R46, R98) -/

theorem State.sameUntouched.refl (s : State) : s.sameUntouched s := ⟨rfl, rfl, rfl, rfl, rfl, fun _ _ => rfl⟩

theorem State.sameUntouched.trans {s t u : State} (h : s.sameUntouched t) (h' : t.sameUntouched u) :
    s.sameUntouched u :=
  ⟨h'.1.trans h.1, h'.2.1.trans h.2.1, h'.2.2.1.trans h.2.2.1, h'.2.2.2.1.trans h.2.2.2.1,
    h'.2.2.2.2.1.trans h.2.2.2.2.1, fun n hn =>
      (h'.2.2.2.2.2 n (h.2.2.1 ▸ hn)).trans (h.2.2.2.2.2 n hn)⟩

theorem sameUntouched_setActive (s : State) (r : Lane) : s.sameUntouched (setActive s r) :=
  ⟨rfl, rfl, rfl, rfl, rfl, fun _ hn => getLane_setActive_other s r hn⟩

theorem sameUntouched_incPc (s : State) : s.sameUntouched (incPc s) := sameUntouched_setActive s _

theorem sameUntouched_chargeDelay (ds : Five) (s : State) : s.sameUntouched (chargeDelay ds s) :=
  ⟨by simp, by simp, by simp, by simp, by simp, fun n _ => by simp⟩

theorem sameUntouched_delayStage (s : State) : s.sameUntouched (delayStage s) :=
  ⟨rfl, rfl, rfl, rfl, rfl, fun _ _ => rfl⟩

theorem sameUntouched_completed (s : State) (ds : Five) (r : Lane) : s.sameUntouched (s.completed ds r) :=
  ⟨rfl, rfl, rfl, rfl, rfl, fun _ hn => getLane_setActive_other _ r hn⟩

/-! ## The pin array (R56) -/

/-- One bit of a plane after it was replaced. -/
theorem writeBit_getLsbD (plane : Word) {p i : Nat} (b : Bool) (hp : p < 32) (hi : i < 32) :
    (writeBit plane p b).getLsbD i = if i = p then b else plane.getLsbD i := by
  unfold writeBit
  by_cases h : i = p <;> cases b <;> simp [h, hp, hi]

/-! ## Fields (R47, R48) -/

/-- A field is narrower than its width says: never sign-extended. -/
theorem getField_lt (v : Word) (p : Config.FieldPos) : getField v p < 2 ^ p.width :=
  Nat.mod_lt _ (Nat.two_pow_pos _)

/-- One bit of a field. -/
theorem getField_testBit (v : Word) (p : Config.FieldPos) (i : Nat) :
    (getField v p).testBit i = (decide (i < p.width) && v.getLsbD (p.offset + i)) := by
  simp [getField, Nat.testBit_mod_two_pow, Nat.testBit_shiftRight, BitVec.getLsbD]

/-- One bit of a word after a field of it was set. -/
theorem setField_getLsbD (v : Word) (p : Config.FieldPos) (n i : Nat) (hi : i < 32) :
    (setField v p n).getLsbD i =
      if p.offset ≤ i ∧ i < p.offset + p.width then n.testBit (i - p.offset) else v.getLsbD i := by
  simp only [setField, BitVec.getLsbD_or, BitVec.getLsbD_and, BitVec.getLsbD_not, BitVec.getLsbD_ofNat,
    Nat.testBit_shiftLeft, Nat.testBit_two_pow_sub_one, Nat.testBit_mod_two_pow, hi, decide_true,
    Bool.true_and, ge_iff_le]
  by_cases h1 : p.offset ≤ i
  · by_cases h2 : i < p.offset + p.width
    · simp [h1, h2, show i - p.offset < p.width by omega]
    · simp [h1, h2, show ¬ i - p.offset < p.width by omega]
  · simp [h1]

end Sys2Proof.Machine
end

