-- ==== Sys2Proof/Laws/Meanings.lean ====
section
/-! SUPPORT. One lemma per shared meaning: what it answers with SIDESET_COUNT 0, without the delay charge in the way.
With any other SIDESET_COUNT `withDelay_on` says it all. -/

namespace Sys2Proof.Machine

/-- Every arm begins with the delay charge of its own `ds` (R93). -/
theorem exec_withDelay (i : Instr) (s : State) : ∃ rest, exec i s = withDelay i.ds s rest := by
  cases i <;>
    simp only [exec, execJmpAlways, execJmpNotX, execJmpXDec, execJmpNotY, execJmpYDec, execJmpXNeY, execJmpPin,
      execJmpNotOsre, jump, execWaitGpio, execWaitPin, execWaitIrq, execWaitRsvd, waitFor, execInBits, execOutBits,
      execMov, execIrq, unimplemented, execPush, execPull, execSetPins, execSetX, execSetY, execSetPindirs,
      execSetRsvd3, execSetRsvd5, execSetRsvd6, execSetRsvd7, setPlane, setScratch, setReserved, Instr.ds] <;>
    exact ⟨_, rfl⟩

/-- The fetch never faults: `pc` is five bits wide (R92, R158). -/
theorem fetch_eq (s : State) : fetch s = .ok (bankWord s.mem (instrOffset (active s).pc.toNat)) :=
  if_neg (by have := (active s).pc.isLt; omega)

/-- JMP (R100). -/
theorem jump_off {s : State} (h : s.sideSetOff) (cond : State → Bool × State) (ds a : Five) :
    jump cond ds a s = .next (if (cond (setDelay ds s)).1 = true
      then setActive (cond (setDelay ds s)).2 { active (cond (setDelay ds s)).2 with pc := a }
      else incPc (cond (setDelay ds s)).2) := by
  rw [jump, withDelay_off h]
  split
  · exact setPc_five a _
  · rfl

/-- WAIT when the poll answers a bit (R110, R115). -/
theorem waitFor_ok {s : State} (h : s.sideSetOff) {poll : State → Except Fault Bool} {ds : Five} {b : Bool}
    (hb : poll (setDelay ds s) = .ok b) (polarity : Bool) :
    waitFor poll ds polarity s = .next (if b = polarity then incPc (setDelay ds s) else s) := by
  rw [waitFor, withDelay_off h]
  simp only [hb]
  split <;> rfl

/-- WAIT when the poll faults (R110). -/
theorem waitFor_error {s : State} (h : s.sideSetOff) {poll : State → Except Fault Bool} {ds : Five} {k : Fault}
    (hk : poll (setDelay ds s) = .error k) (polarity : Bool) :
    waitFor poll ds polarity s = .next (s.faulted ds k) := by
  rw [waitFor, withDelay_off h]
  simp only [hk]
  rfl

/-- PUSH, its three stages (R120). -/
theorem execPush_off {s : State} (h : s.sideSetOff) (ds : Five) (ifFull block : Bool) :
    execPush ds ifFull block s =
      if ifFull = true ∧ (active s).isrCount.val < configured s .pushThresh then .next (incPc (setDelay ds s))
      else if block = true ∧ 4 ≤ (active s).rxf.length then .next (setDelay ds s)
      else pushTransfer (setDelay ds s) := by
  rw [execPush, withDelay_off h]
  simp only [rxFull_iff]
  rfl

/-- The transfer of PUSH with room (R120). -/
theorem pushTransfer_room {s : State} (h : (active s).rxf.length < 4) :
    pushTransfer s = .next (setActive s
      { (active s).advanced with rxf := (active s).rxf ++ [(active s).isr], isr := 0 }) := by
  rw [pushTransfer, pushRx_room h]
  simp [incPc, Lane.advanced]

/-- The transfer of PUSH on a full FIFO (R120, R155). -/
theorem pushTransfer_full {s : State} (h : 4 ≤ (active s).rxf.length) :
    pushTransfer s = raise .fifoFull s := by
  rw [pushTransfer, pushRx_full h]

/-- PULL, its three stages (R121). -/
theorem execPull_off {s : State} (h : s.sideSetOff) (ds : Five) (ifEmpty block : Bool) :
    execPull ds ifEmpty block s =
      if ifEmpty = true ∧ (active s).osrCount.val < configured s .pullThresh then .next (incPc (setDelay ds s))
      else if block = true ∧ (active s).txf = [] then .next (setDelay ds s)
      else pullTransfer (setDelay ds s) := by
  rw [execPull, withDelay_off h]
  simp only [txEmpty_iff]
  rfl

/-- The transfer of PULL from a FIFO that has a word (R121). -/
theorem pullTransfer_cons {s : State} {v : Word} {q : List Word} (h : (active s).txf = v :: q) :
    pullTransfer s = .next (setActive s { (active s).advanced with osr := v, txf := q }) := by
  rw [pullTransfer, popTx_cons h]
  simp [txEmpty, h, loadOsr, incPc, Lane.advanced]

/-- The transfer of PULL from an empty FIFO (R121). -/
theorem pullTransfer_nil {s : State} (h : (active s).txf = []) :
    pullTransfer s = .next (setActive s { (active s).advanced with osr := (active s).x }) := by
  simp [pullTransfer, txEmpty, h, loadOsr, incPc, Lane.advanced]

/-- IN, OUT, MOV and IRQ (R140). -/
theorem unimplemented_off {s : State} (h : s.sideSetOff) (ds : Five) :
    unimplemented ds s = .next (s.faulted ds .unsupportedInstruction) := by
  rw [unimplemented, withDelay_off h]
  rfl

/-- SET X and SET Y (R130). -/
theorem setScratch_off {s : State} (h : s.sideSetOff) (write : Lane → Lane) (ds : Five) :
    setScratch write ds s = .next (s.completed ds (write (active s)).advanced) := by
  rw [setScratch, withDelay_off h]
  simp [State.completed, incPc, Lane.advanced]

/-- SET PINS and SET PINDIRS (R130). -/
theorem setPlane_off {s : State} (h : s.sideSetOff) {write : Nat → Nat → Word → Gpio → Except Fault Gpio}
    {ds data : Five} {g : Gpio}
    (hg : write (setBaseIndex s) (setPinCount s) (immediate data) s.gpio = .ok g) :
    setPlane write ds data s = .next { s.completed ds (active s).advanced with gpio := g } := by
  rw [setPlane, withDelay_off h]
  have hg' : write (setBaseIndex (setDelay ds s)) (setPinCount (setDelay ds s)) (immediate data)
    (setDelay ds s).gpio = .ok g := hg
  simp only [hg']
  rfl

/-- SET PINS and SET PINDIRS with more than 32 pins (R58). -/
theorem setPlane_error {s : State} (h : s.sideSetOff) {write : Nat → Nat → Word → Gpio → Except Fault Gpio}
    {ds data : Five} {k : Fault}
    (hk : write (setBaseIndex s) (setPinCount s) (immediate data) s.gpio = .error k) :
    setPlane write ds data s = .next (s.faulted ds k) := by
  rw [setPlane, withDelay_off h]
  have hk' : write (setBaseIndex (setDelay ds s)) (setPinCount (setDelay ds s)) (immediate data)
    (setDelay ds s).gpio = .error k := hk
  simp only [hk']
  rfl

/-- SET with a Reserved destination (R135). -/
theorem setReserved_off {s : State} (h : s.sideSetOff) (number : Config.SetNumbers → BitVec 3) (ds : Five) :
    setReserved number ds s = .next (s.faulted ds (.unsupportedDestination (number s.enums.set))) := by
  rw [setReserved, withDelay_off h]
  rfl

/-- SET_COUNT is below what its field can hold; with the default layout it never exceeds 7 (R58). -/
theorem setPinCount_lt (s : State) : setPinCount s < 2 ^ s.layout.setCount.width := getField_lt _ _

end Sys2Proof.Machine
end

