-- ==== Sys2Proof/Laws/Numbering.lean ====
section
/-! SUPPORT. What an admitted numbering gives the decoder (R81 to R83): each member is decoded from its own number, and
each number is some member's. -/

namespace Sys2Proof

/-- Different numbers, as many as there are, are all of them. -/
theorem mem_of_nodup {w : Nat} {l : List (BitVec w)} (h : l.Nodup) (hl : l.length = 2 ^ w) (c : BitVec w) :
    c ∈ l := by
  have hm : (l.map BitVec.toFin).Nodup := h.map fun a b e => by simpa [BitVec.toFin_inj] using e
  have hu : (l.map BitVec.toFin).toFinset = Finset.univ :=
    Finset.eq_univ_of_card _ (by rw [List.toFinset_card_of_nodup hm]; simp [hl])
  have : c.toFin ∈ (l.map BitVec.toFin).toFinset := hu ▸ Finset.mem_univ _
  simpa [BitVec.toFin_inj] using this

theorem jmp_numbers {m : Config.EnumMap} (h : Config.enumsOk m = true) (c : BitVec 3) :
    c = m.jmp.always ∨ c = m.jmp.notX ∨ c = m.jmp.xDec ∨ c = m.jmp.notY ∨ c = m.jmp.yDec ∨ c = m.jmp.xNeY ∨
      c = m.jmp.pin ∨ c = m.jmp.notOsre := by
  simp only [Config.enumsOk, Bool.and_eq_true, decide_eq_true_eq] at h
  simpa using mem_of_nodup h.1.1.1 rfl c

theorem wait_numbers {m : Config.EnumMap} (h : Config.enumsOk m = true) (c : BitVec 2) :
    c = m.wait.gpio ∨ c = m.wait.pin ∨ c = m.wait.irq ∨ c = m.wait.rsvd := by
  simp only [Config.enumsOk, Bool.and_eq_true, decide_eq_true_eq] at h
  simpa using mem_of_nodup h.1.2 rfl c

theorem set_numbers {m : Config.EnumMap} (h : Config.enumsOk m = true) (c : BitVec 3) :
    c = m.set.pins ∨ c = m.set.x ∨ c = m.set.y ∨ c = m.set.rsvd3 ∨ c = m.set.pindirs ∨ c = m.set.rsvd5 ∨
      c = m.set.rsvd6 ∨ c = m.set.rsvd7 := by
  simp only [Config.enumsOk, Bool.and_eq_true, decide_eq_true_eq] at h
  simpa using mem_of_nodup h.2 rfl c

/-- What `decodeJmp` gives for the number of each member. -/
theorem decodeJmp_number {m : Config.EnumMap} (h : Config.enumsOk m = true) (ds a : Five) :
    decodeJmp m.jmp m.jmp.always ds a = .jmpAlways ds a ∧ decodeJmp m.jmp m.jmp.notX ds a = .jmpNotX ds a ∧
    decodeJmp m.jmp m.jmp.xDec ds a = .jmpXDec ds a ∧ decodeJmp m.jmp m.jmp.notY ds a = .jmpNotY ds a ∧
    decodeJmp m.jmp m.jmp.yDec ds a = .jmpYDec ds a ∧ decodeJmp m.jmp m.jmp.xNeY ds a = .jmpXNeY ds a ∧
    decodeJmp m.jmp m.jmp.pin ds a = .jmpPin ds a ∧ decodeJmp m.jmp m.jmp.notOsre ds a = .jmpNotOsre ds a := by
  simp only [Config.enumsOk, Bool.and_eq_true, decide_eq_true_eq] at h
  have hn := h.1.1.1
  simp only [List.nodup_cons, List.mem_cons, List.not_mem_nil, or_false, not_or] at hn
  simp [decodeJmp, hn, Ne.symm]

/-- What `decodeWait` gives for the number of each member. -/
theorem decodeWait_number {m : Config.EnumMap} (h : Config.enumsOk m = true) (ds : Five) (p : Bool) (i : Five) :
    decodeWait m.wait m.wait.gpio ds p i = .waitGpio ds p i ∧ decodeWait m.wait m.wait.pin ds p i = .waitPin ds p i ∧
    decodeWait m.wait m.wait.irq ds p i = .waitIrq ds p i ∧ decodeWait m.wait m.wait.rsvd ds p i = .waitRsvd ds p i := by
  simp only [Config.enumsOk, Bool.and_eq_true, decide_eq_true_eq] at h
  have hn := h.1.2
  simp only [List.nodup_cons, List.mem_cons, List.not_mem_nil, or_false, not_or] at hn
  simp [decodeWait, hn, eq_comm]

/-- What `decodeSet` gives for the number of each member. -/
theorem decodeSet_number {m : Config.EnumMap} (h : Config.enumsOk m = true) (ds d : Five) :
    decodeSet m.set m.set.pins ds d = .setPins ds d ∧ decodeSet m.set m.set.x ds d = .setX ds d ∧
    decodeSet m.set m.set.y ds d = .setY ds d ∧ decodeSet m.set m.set.rsvd3 ds d = .setRsvd3 ds d ∧
    decodeSet m.set m.set.pindirs ds d = .setPindirs ds d ∧ decodeSet m.set m.set.rsvd5 ds d = .setRsvd5 ds d ∧
    decodeSet m.set m.set.rsvd6 ds d = .setRsvd6 ds d ∧ decodeSet m.set m.set.rsvd7 ds d = .setRsvd7 ds d := by
  simp only [Config.enumsOk, Bool.and_eq_true, decide_eq_true_eq] at h
  have hn := h.2
  simp only [List.nodup_cons, List.mem_cons, List.not_mem_nil, or_false, not_or] at hn
  simp [decodeSet, hn, eq_comm]

end Sys2Proof
end

