-- ==== Sys2Proof/Laws/PerInstr.lean ====
section
/-! SUPPORT. A statement about every instruction as syntax, one lemma per constructor: its encoding is an
encoding of its row of spec/opcode_table.json, with the delay/side-set field at [12:8]. -/

namespace Sys2Proof.Laws.TableRow

/-- The row's mask and match, as spec/opcode_table.json has them. -/
def row : Instr → InstrWord × InstrWord
  | .jmpAlways .. => (0xE0E0, 0x0000)
  | .jmpNotX .. => (0xE0E0, 0x0020)
  | .jmpXDec .. => (0xE0E0, 0x0040)
  | .jmpNotY .. => (0xE0E0, 0x0060)
  | .jmpYDec .. => (0xE0E0, 0x0080)
  | .jmpXNeY .. => (0xE0E0, 0x00A0)
  | .jmpPin .. => (0xE0E0, 0x00C0)
  | .jmpNotOsre .. => (0xE0E0, 0x00E0)
  | .waitGpio .. => (0xE060, 0x2000)
  | .waitPin .. => (0xE060, 0x2020)
  | .waitIrq .. => (0xE060, 0x2040)
  | .waitRsvd .. => (0xE060, 0x2060)
  | .inBits .. => (0xE000, 0x4000)
  | .outBits .. => (0xE000, 0x6000)
  | .push .. => (0xE080, 0x8000)
  | .pull .. => (0xE080, 0x8080)
  | .mov .. => (0xE000, 0xA000)
  | .irq .. => (0xE000, 0xC000)
  | .setPins .. => (0xE0E0, 0xE000)
  | .setX .. => (0xE0E0, 0xE020)
  | .setY .. => (0xE0E0, 0xE040)
  | .setRsvd3 .. => (0xE0E0, 0xE060)
  | .setPindirs .. => (0xE0E0, 0xE080)
  | .setRsvd5 .. => (0xE0E0, 0xE0A0)
  | .setRsvd6 .. => (0xE0E0, 0xE0C0)
  | .setRsvd7 .. => (0xE0E0, 0xE0E0)

/-- With the default numbering the encoding of `i` is one of its row of the opcode table and holds its `ds` field (R71). -/
def Statement (i : Instr) : Prop :=
  encode defaultEnums i &&& (row i).1 = (row i).2 ∧ (encode defaultEnums i).extractLsb' 8 5 = i.ds

theorem packWord_ds (opcode : BitVec 3) (ds : Five) (low : BitVec 8) :
    (packWord opcode ds low).extractLsb' 8 5 = ds := by
  apply BitVec.eq_of_getLsbD_eq
  intro i hi
  rw [BitVec.getLsbD_extractLsb']
  simp only [packWord, BitVec.getLsbD_append]
  simp [hi]

theorem packWord_masked (opcode : BitVec 3) (ds : Five) (low mask : BitVec 8) :
    packWord opcode ds low &&& (0b111#3 ++ 0#5 ++ mask) = opcode ++ 0#5 ++ (low &&& mask) := by
  apply BitVec.eq_of_getLsbD_eq
  intro i hi
  simp only [packWord, BitVec.getLsbD_and, BitVec.getLsbD_append]
  by_cases h1 : i < 8
  · simp [h1]
  · by_cases h2 : i - 8 < 5
    · simp [h1, h2]
    · have h3 : i - 8 - 5 < 3 := by omega
      have h4 : (7#3).getLsbD (i - 8 - 5) = true := by
        generalize i - 8 - 5 = k at h3
        interval_cases k <;> rfl
      simp [h1, h2, h4]

theorem high_masked (high : BitVec 3) (low : Five) : lowByte high low &&& 0xE0 = high ++ 0#5 := by
  revert high low; decide

theorem wait_masked (polarity : Bool) (source : BitVec 2) (index : Five) :
    waitByte polarity source index &&& 0x60 = 0#1 ++ source ++ 0#5 := by
  revert polarity source index; decide

theorem flag_masked (b7 b6 b5 : Bool) : flagByte b7 b6 b5 0 &&& 0x80 = BitVec.ofBool b7 ++ 0#7 := by
  revert b7 b6 b5; decide

/-- A word built from its parts is its row's when its low byte is. -/
theorem of_low {opcode : BitVec 3} {ds : Five} {low mask match8 : BitVec 8} (h : low &&& mask = match8) :
    packWord opcode ds low &&& (0b111#3 ++ 0#5 ++ mask) = opcode ++ 0#5 ++ match8 := by
  rw [packWord_masked, h]

theorem jmpAlways (ds address : Five) : Statement (.jmpAlways ds address) :=
  ⟨of_low (high_masked 0 address), packWord_ds ..⟩
theorem jmpNotX (ds address : Five) : Statement (.jmpNotX ds address) :=
  ⟨of_low (high_masked 1 address), packWord_ds ..⟩
theorem jmpXDec (ds address : Five) : Statement (.jmpXDec ds address) :=
  ⟨of_low (high_masked 2 address), packWord_ds ..⟩
theorem jmpNotY (ds address : Five) : Statement (.jmpNotY ds address) :=
  ⟨of_low (high_masked 3 address), packWord_ds ..⟩
theorem jmpYDec (ds address : Five) : Statement (.jmpYDec ds address) :=
  ⟨of_low (high_masked 4 address), packWord_ds ..⟩
theorem jmpXNeY (ds address : Five) : Statement (.jmpXNeY ds address) :=
  ⟨of_low (high_masked 5 address), packWord_ds ..⟩
theorem jmpPin (ds address : Five) : Statement (.jmpPin ds address) :=
  ⟨of_low (high_masked 6 address), packWord_ds ..⟩
theorem jmpNotOsre (ds address : Five) : Statement (.jmpNotOsre ds address) :=
  ⟨of_low (high_masked 7 address), packWord_ds ..⟩
theorem waitGpio (ds : Five) (polarity : Bool) (index : Five) : Statement (.waitGpio ds polarity index) :=
  ⟨of_low (wait_masked polarity 0 index), packWord_ds ..⟩
theorem waitPin (ds : Five) (polarity : Bool) (index : Five) : Statement (.waitPin ds polarity index) :=
  ⟨of_low (wait_masked polarity 1 index), packWord_ds ..⟩
theorem waitIrq (ds : Five) (polarity : Bool) (index : Five) : Statement (.waitIrq ds polarity index) :=
  ⟨of_low (wait_masked polarity 2 index), packWord_ds ..⟩
theorem waitRsvd (ds : Five) (polarity : Bool) (index : Five) : Statement (.waitRsvd ds polarity index) :=
  ⟨of_low (wait_masked polarity 3 index), packWord_ds ..⟩
theorem inBits (ds : Five) (source : BitVec 3) (bitCount : Five) : Statement (.inBits ds source bitCount) :=
  ⟨of_low BitVec.and_zero, packWord_ds ..⟩
theorem outBits (ds : Five) (destination : BitVec 3) (bitCount : Five) :
    Statement (.outBits ds destination bitCount) :=
  ⟨of_low BitVec.and_zero, packWord_ds ..⟩
theorem push (ds : Five) (ifFull block : Bool) : Statement (.push ds ifFull block) :=
  ⟨of_low (flag_masked false ifFull block), packWord_ds ..⟩
theorem pull (ds : Five) (ifEmpty block : Bool) : Statement (.pull ds ifEmpty block) :=
  ⟨of_low (flag_masked true ifEmpty block), packWord_ds ..⟩
theorem mov (ds : Five) (destination : BitVec 3) (op : BitVec 2) (source : BitVec 3) :
    Statement (.mov ds destination op source) :=
  ⟨of_low BitVec.and_zero, packWord_ds ..⟩
theorem irq (ds : Five) (clear wait : Bool) (index : Five) : Statement (.irq ds clear wait index) :=
  ⟨of_low BitVec.and_zero, packWord_ds ..⟩
theorem setPins (ds data : Five) : Statement (.setPins ds data) :=
  ⟨of_low (high_masked 0 data), packWord_ds ..⟩
theorem setX (ds data : Five) : Statement (.setX ds data) :=
  ⟨of_low (high_masked 1 data), packWord_ds ..⟩
theorem setY (ds data : Five) : Statement (.setY ds data) :=
  ⟨of_low (high_masked 2 data), packWord_ds ..⟩
theorem setRsvd3 (ds data : Five) : Statement (.setRsvd3 ds data) :=
  ⟨of_low (high_masked 3 data), packWord_ds ..⟩
theorem setPindirs (ds data : Five) : Statement (.setPindirs ds data) :=
  ⟨of_low (high_masked 4 data), packWord_ds ..⟩
theorem setRsvd5 (ds data : Five) : Statement (.setRsvd5 ds data) :=
  ⟨of_low (high_masked 5 data), packWord_ds ..⟩
theorem setRsvd6 (ds data : Five) : Statement (.setRsvd6 ds data) :=
  ⟨of_low (high_masked 6 data), packWord_ds ..⟩
theorem setRsvd7 (ds data : Five) : Statement (.setRsvd7 ds data) :=
  ⟨of_low (high_masked 7 data), packWord_ds ..⟩

end Sys2Proof.Laws.TableRow
end

