-- ==== Sys2Proof/Laws/RegBank.lean ====
section
/-! SUPPORT. The register bank: a read after a write, the canonical form, which every memory operation keeps, the
register map, the reset contents, and what an admitted layout gives. -/

namespace Sys2Proof.Machine

/-! ## The canonical form -/

theorem cellsFrom_mono {low low' : Nat} (h : low ≤ low') :
    ∀ {m : List Host.Cell}, cellsFrom low' m = true → cellsFrom low m = true
  | [], _ => rfl
  | (_, _) :: _, hm => by
    simp only [cellsFrom, Bool.and_eq_true, decide_eq_true_eq] at hm ⊢
    exact ⟨⟨⟨h.trans hm.1.1.1, hm.1.1.2⟩, hm.1.2⟩, hm.2⟩

/-- An address below every entry is not listed. -/
theorem bankLookup_below {a : Nat} :
    ∀ {m : List Host.Cell} {low : Nat}, a < low → cellsFrom low m = true → bankLookup m a = none
  | [], _, _, _ => rfl
  | (c, d) :: rest, low, h, hm => by
    simp only [cellsFrom, Bool.and_eq_true, decide_eq_true_eq] at hm
    have hc : c ≠ a := by omega
    simp only [bankLookup, if_neg hc]
    exact bankLookup_below (by omega) hm.2

theorem cellsFrom_bankList {a : Nat} {b : Byte} (ha : a < Config.bankBytes) (hb : b ≠ resetByte a) :
    ∀ {m : List Host.Cell} {low : Nat}, low ≤ a → cellsFrom low m = true →
      cellsFrom low (bankList m a b) = true
  | [], low, h, _ => by simp [bankList, cellsFrom, h, hb]; exact ha
  | (c, d) :: rest, low, h, hm => by
    have hm' := hm
    simp only [cellsFrom, Bool.and_eq_true, decide_eq_true_eq] at hm
    obtain ⟨⟨⟨h1, h2⟩, h3⟩, h4⟩ := hm
    unfold bankList
    split
    · rename_i hlt
      simp only [cellsFrom, Bool.and_eq_true, decide_eq_true_eq, bne_iff_ne]
      exact ⟨⟨⟨h, ha⟩, hb⟩, ⟨⟨⟨hlt, h2⟩, by simpa using h3⟩, h4⟩⟩
    · split
      · rename_i heq
        subst heq
        simp only [cellsFrom, Bool.and_eq_true, decide_eq_true_eq, bne_iff_ne]
        exact ⟨⟨⟨h, ha⟩, hb⟩, h4⟩
      · rename_i hlt hne
        simp only [cellsFrom, Bool.and_eq_true, decide_eq_true_eq]
        exact ⟨⟨⟨h1, h2⟩, h3⟩, cellsFrom_bankList ha hb (by omega) h4⟩

theorem cellsFrom_bankUnlist {a : Nat} :
    ∀ {m : List Host.Cell} {low : Nat}, cellsFrom low m = true → cellsFrom low (bankUnlist m a) = true
  | [], _, _ => rfl
  | (c, d) :: rest, low, hm => by
    simp only [cellsFrom, Bool.and_eq_true, decide_eq_true_eq] at hm
    unfold bankUnlist
    split
    · exact cellsFrom_mono (by omega) hm.2
    · simp only [cellsFrom, Bool.and_eq_true, decide_eq_true_eq]
      exact ⟨hm.1, cellsFrom_bankUnlist hm.2⟩

/-- Writing one byte inside the bank keeps the canonical form. -/
theorem bankSetByte_wf {m : List Host.Cell} {a : Nat} (b : Byte) (ha : a < Config.bankBytes)
    (hm : Memory.wf m = true) : Memory.wf (bankSetByte m a b) = true := by
  unfold bankSetByte Memory.wf
  split
  · exact cellsFrom_bankUnlist hm
  · rename_i hb
    exact cellsFrom_bankList ha hb (Nat.zero_le a) hm

/-- Writing a register of the bank keeps the canonical form. -/
theorem bankSetWord_wf {m : List Host.Cell} {a : Nat} (v : Word) (ha : a + 3 < Config.bankBytes)
    (hm : Memory.wf m = true) : Memory.wf (bankSetWord m a v) = true := by
  unfold bankSetWord
  exact bankSetByte_wf _ ha (bankSetByte_wf _ (by omega) (bankSetByte_wf _ (by omega)
    (bankSetByte_wf _ (by omega) hm)))

theorem wf_nil : Memory.wf [] = true := rfl

/-! ## A read after a write -/

theorem bankLookup_bankList_self (a : Nat) (b : Byte) :
    ∀ m : List Host.Cell, bankLookup (bankList m a b) a = some b
  | [] => by simp [bankList, bankLookup]
  | (c, d) :: rest => by
    unfold bankList
    split
    · simp [bankLookup]
    · split
      · simp [bankLookup]
      · rename_i hne
        have : c ≠ a := fun h => hne h.symm
        simp [bankLookup, this, bankLookup_bankList_self a b rest]

theorem bankLookup_bankList_other {a a' : Nat} (b : Byte) (h : a' ≠ a) :
    ∀ m : List Host.Cell, bankLookup (bankList m a b) a' = bankLookup m a'
  | [] => by simp [bankList, bankLookup, Ne.symm h]
  | (c, d) :: rest => by
    unfold bankList
    split
    · simp [bankLookup, Ne.symm h]
    · split
      · rename_i heq
        subst heq
        simp [bankLookup, Ne.symm h]
      · simp [bankLookup, bankLookup_bankList_other b h rest]

theorem bankLookup_bankUnlist_self {a : Nat} :
    ∀ {m : List Host.Cell} {low : Nat}, cellsFrom low m = true → bankLookup (bankUnlist m a) a = none
  | [], _, _ => rfl
  | (c, d) :: rest, low, hm => by
    simp only [cellsFrom, Bool.and_eq_true, decide_eq_true_eq] at hm
    unfold bankUnlist
    split
    · rename_i h
      exact bankLookup_below (by omega) hm.2
    · rename_i h
      simp [bankLookup, h, bankLookup_bankUnlist_self hm.2]

theorem bankLookup_bankUnlist_other {a a' : Nat} (h : a' ≠ a) :
    ∀ m : List Host.Cell, bankLookup (bankUnlist m a) a' = bankLookup m a'
  | [] => rfl
  | (c, d) :: rest => by
    unfold bankUnlist
    split
    · rename_i hc
      have : c ≠ a' := fun h' => h (h'.symm.trans hc)
      simp [bankLookup, this]
    · simp [bankLookup, bankLookup_bankUnlist_other h rest]

/-- A byte read back after it was written. -/
theorem bankByte_bankSetByte_self {m : List Host.Cell} (a : Nat) (b : Byte) (hm : Memory.wf m = true) :
    bankByte (bankSetByte m a b) a = b := by
  unfold bankByte bankSetByte
  split
  · rename_i h
    rw [bankLookup_bankUnlist_self hm, h]
    rfl
  · rw [bankLookup_bankList_self]
    rfl

/-- A byte read back after another one was written. -/
theorem bankByte_bankSetByte_other (m : List Host.Cell) {a a' : Nat} (b : Byte) (h : a' ≠ a) :
    bankByte (bankSetByte m a b) a' = bankByte m a' := by
  unfold bankByte bankSetByte
  split
  · rw [bankLookup_bankUnlist_other h]
  · rw [bankLookup_bankList_other b h]

/-- A byte outside a register that was written (R45). -/
theorem bankByte_bankSetWord_other (m : List Host.Cell) {a a' : Nat} (v : Word) (h : a' < a ∨ a + 3 < a') :
    bankByte (bankSetWord m a v) a' = bankByte m a' := by
  unfold bankSetWord
  rw [bankByte_bankSetByte_other _ _ (by omega), bankByte_bankSetByte_other _ _ (by omega),
    bankByte_bankSetByte_other _ _ (by omega), bankByte_bankSetByte_other _ _ (by omega)]

theorem word_of_bytes (v : Word) :
    v.extractLsb' 24 8 ++ v.extractLsb' 16 8 ++ v.extractLsb' 8 8 ++ v.extractLsb' 0 8 = v := by
  apply BitVec.eq_of_getLsbD_eq
  intro i hi
  simp only [BitVec.getLsbD_append, BitVec.getLsbD_extractLsb']
  by_cases h1 : i < 8
  · simp [h1]
  · by_cases h2 : i - 8 < 8
    · simp [h1, h2, show 8 + (i - 8) = i by omega]
    · by_cases h3 : i - 8 - 8 < 8
      · simp [h1, h2, h3, show 16 + (i - 8 - 8) = i by omega]
      · simp [h1, h2, h3, show i - 8 - 8 - 8 < 8 by omega, show 24 + (i - 8 - 8 - 8) = i by omega]

/-- A register read back after it was written (R44). -/
theorem bankWord_bankSetWord_self {m : List Host.Cell} {a : Nat} (v : Word) (ha : a + 3 < Config.bankBytes)
    (hm : Memory.wf m = true) : bankWord (bankSetWord m a v) a = v := by
  have w1 := bankSetByte_wf (v.extractLsb' 0 8) (show a < Config.bankBytes by omega) hm
  have w2 := bankSetByte_wf (v.extractLsb' 8 8) (show a + 1 < Config.bankBytes by omega) w1
  have w3 := bankSetByte_wf (v.extractLsb' 16 8) (show a + 2 < Config.bankBytes by omega) w2
  have e3 : bankByte (bankSetWord m a v) (a + 3) = v.extractLsb' 24 8 :=
    bankByte_bankSetByte_self _ _ w3
  have e2 : bankByte (bankSetWord m a v) (a + 2) = v.extractLsb' 16 8 :=
    (bankByte_bankSetByte_other _ _ (by omega)).trans (bankByte_bankSetByte_self _ _ w2)
  have e1 : bankByte (bankSetWord m a v) (a + 1) = v.extractLsb' 8 8 :=
    (bankByte_bankSetByte_other _ _ (by omega)).trans
      ((bankByte_bankSetByte_other _ _ (by omega)).trans (bankByte_bankSetByte_self _ _ w1))
  have e0 : bankByte (bankSetWord m a v) a = v.extractLsb' 0 8 :=
    (bankByte_bankSetByte_other _ _ (by omega)).trans
      ((bankByte_bankSetByte_other _ _ (by omega)).trans
        ((bankByte_bankSetByte_other _ _ (by omega)).trans (bankByte_bankSetByte_self _ _ hm)))
  unfold bankWord
  rw [e3, e2, e1, e0]
  exact word_of_bytes v

/-- Another register read back after a register was written (R45). -/
theorem bankWord_bankSetWord_other (m : List Host.Cell) {a a' : Nat} (v : Word) (h : a' + 3 < a ∨ a + 3 < a') :
    bankWord (bankSetWord m a v) a' = bankWord m a' := by
  unfold bankWord
  rw [bankByte_bankSetWord_other m v (by omega), bankByte_bankSetWord_other m v (by omega),
    bankByte_bankSetWord_other m v (by omega), bankByte_bankSetWord_other m v (by omega)]

/-! ## The register map -/

/-- Every register of the map is inside the bank and aligned (R41, R44). -/
theorem regOffset_inBank (r : Reg) : regOffset r + 3 < Config.bankBytes ∧ regOffset r % 4 = 0 := by
  cases r with
  | txf n => simp only [regOffset, Config.bankBytes]; omega
  | rxf n => simp only [regOffset, Config.bankBytes]; omega
  | instrMem i => simp only [regOffset, Config.bankBytes]; omega
  | sm n r => cases r <;> simp only [regOffset, smRegOffset, Config.bankBytes] <;> omega
  | _ => decide

/-- Two registers of the map have different offsets (R41). -/
theorem regOffset_injective {r r' : Reg} (h : regOffset r = regOffset r') : r = r' := by
  cases r <;> cases r' <;> simp only [regOffset] at h <;> first | rfl | omega | skip
  case txf.txf => congr 1; omega
  case rxf.rxf => congr 1; omega
  case instrMem.instrMem => congr 1; omega
  case sm.sm n r n' r' =>
    have : n = n' ∧ r = r' := by
      cases r <;> cases r' <;> simp only [smRegOffset] at h <;> first | exact ⟨by omega, rfl⟩ | omega
    rw [this.1, this.2]
  all_goals (rename_i r; cases r <;> simp only [smRegOffset] at h <;> omega)

/-- Two registers of the map share no byte. -/
theorem regOffset_apart {r r' : Reg} (h : r' ≠ r) :
    regOffset r' + 3 < regOffset r ∨ regOffset r + 3 < regOffset r' := by
  have h1 := (regOffset_inBank r).2
  have h2 := (regOffset_inBank r').2
  have h3 : regOffset r ≠ regOffset r' := fun e => h (regOffset_injective e).symm
  omega

/-- A register read after any register was written, by the register's name. -/
theorem bankWord_bankSetWord_reg {m : List Host.Cell} (hm : Memory.wf m = true) (r r' : Reg) (v : Word) :
    bankWord (bankSetWord m (regOffset r) v) (regOffset r') =
      if r' = r then v else bankWord m (regOffset r') := by
  split
  · rename_i h
    rw [h]
    exact bankWord_bankSetWord_self v (regOffset_inBank r).1 hm
  · rename_i h
    exact bankWord_bankSetWord_other m v (regOffset_apart h)

/-! ## Reset contents (R31) -/

theorem writeResetWords_wf (l : Config.FieldLayout) :
    ∀ {rs : List Reg} {m : List Host.Cell}, Memory.wf m = true → Memory.wf (writeResetWords l rs m) = true
  | [], _, hm => hm
  | r :: rest, _, hm => by
    rw [writeResetWords]
    exact writeResetWords_wf l (rs := rest) (bankSetWord_wf (resetWord l r) (regOffset_inBank r).1 hm)

theorem bankWord_writeResetWords (l : Config.FieldLayout) (r' : Reg) :
    ∀ {rs : List Reg} {m : List Host.Cell}, Memory.wf m = true →
      bankWord (writeResetWords l rs m) (regOffset r') =
        if r' ∈ rs then resetWord l r' else bankWord m (regOffset r')
  | [], _, _ => by simp [writeResetWords]
  | r :: rest, m, hm => by
    rw [writeResetWords, bankWord_writeResetWords l r' (bankSetWord_wf _ (regOffset_inBank r).1 hm),
      bankWord_bankSetWord_reg hm]
    by_cases h : r' = r
    · simp [h]
    · simp [h]

theorem resetBank_wf (l : Config.FieldLayout) : Memory.wf (resetBank l) = true := writeResetWords_wf l rfl

/-- Nothing is listed in the bank of a block just constructed with the default layout. -/
theorem resetBank_default : resetBank defaultLayout = [] := by decide

/-- A register the source gives no reset value reads 0 in a bank that lists nothing. -/
theorem bankWord_nil_of_unlisted {r : Reg} (h : r ∉ resetListed) : bankWord [] (regOffset r) = 0 := by
  cases r with
  | txf n => revert n; decide
  | rxf n => revert n; decide
  | instrMem n => revert n; decide
  | sm n r =>
    cases r
    case addr => clear h; revert n; decide
    case instr => clear h; revert n; decide
    all_goals exact absurd (by revert n; decide) h
  | fstat => exact absurd (by decide) h
  | _ => decide

/-- Every register of a block just constructed, with any layout (R31). -/
theorem bankWord_resetBank (l : Config.FieldLayout) (r : Reg) :
    bankWord (resetBank l) (regOffset r) = resetWord l r := by
  rw [resetBank, bankWord_writeResetWords l r rfl]
  split
  · rfl
  · rename_i h
    rw [bankWord_nil_of_unlisted h]
    cases r with
    | sm n r =>
      cases r
      case addr => rfl
      case instr => rfl
      all_goals exact absurd (by revert n; decide) h
    | fstat => exact absurd (by decide) h
    | _ => rfl

/-! ## Admitted layouts (R22) -/

/-- Every field of an admitted layout lies inside its register. -/
theorem layoutOk_inWord {l : Config.FieldLayout} (h : Config.layoutOk l = true) (f : Config.FieldName) :
    0 < (fieldPos l f).width ∧ (fieldPos l f).offset + (fieldPos l f).width ≤ 32 := by
  simp only [Config.layoutOk, Config.FieldLayout.groups, Config.FieldPos.inWord, List.all_cons, List.all_nil,
    Bool.and_eq_true, decide_eq_true_eq] at h
  cases f <;> simp only [fieldPos] <;> omega

/-- Two fields of one register of an admitted layout share no bit. -/
theorem layoutOk_apart {l : Config.FieldLayout} (h : Config.layoutOk l = true) {n n' : Fin 4}
    {f g : Config.FieldName} (hr : fieldReg n' g = fieldReg n f) (hg : g ≠ f) :
    (fieldPos l g).offset + (fieldPos l g).width ≤ (fieldPos l f).offset ∨
      (fieldPos l f).offset + (fieldPos l f).width ≤ (fieldPos l g).offset := by
  simp only [Config.layoutOk, Config.FieldLayout.groups, Config.apartAll, Config.FieldPos.apart, List.all_cons,
    List.all_nil, Bool.and_eq_true, Bool.or_eq_true, decide_eq_true_eq] at h
  cases g <;> cases f <;> simp only [fieldReg, reduceCtorEq, Reg.sm.injEq, and_false] at hr <;>
    first | exact absurd rfl hg | (simp only [fieldPos, h]; done) | (rw [or_comm]; simp only [fieldPos, h])

end Sys2Proof.Machine
end

