-- ==== Sys2Proof/Tests/Slice0.lean ====
section
/-! SUPPORT. Tests of the model, each about one step on a small state, with expected results from the encodings of
30_encoding.md and the vectors of 95_test_vectors.md (V-JMP 6 is row 6 of that file's section V-JMP), and the
witnesses that meet the hypotheses of the statements. -/

namespace Sys2Proof.Tests

open Sys2Proof Sys2Proof.Machine

/-! ## Helpers -/

/-- The next state of a step, if it has one. -/
def stepped (s : State) : Option State :=
  match step s with
  | .next t => some t
  | _ => none

/-- The next state of an instruction, if it has one. -/
def ran (i : Instr) (s : State) : Option State :=
  match exec i s with
  | .next t => some t
  | _ => none

theorem step_of_stepped {s t : State} (h : stepped s = some t) : step s = .next t := by
  unfold stepped at h
  split at h <;> simp_all

theorem exec_of_ran {i : Instr} {s t : State} (h : ran i s = some t) : exec i s = .next t := by
  unfold ran at h
  split at h <;> simp_all

/-- The block just constructed. -/
abbrev base : State := State.reset

/-- A block with the active lane's record changed. -/
def withLaneRec (f : Lane → Lane) (s : State) : State := setActive s (f (active s))

/-- A block with a register written by the host. -/
def withReg (r : Reg) (v : Word) (s : State) : State := { s with mem := bankSetWord s.mem (regOffset r) v }

/-- A block with a value plane. -/
def withPins (v : Word) (s : State) : State := { s with gpio := { s.gpio with value := v } }

/-- A block with `pc` at an index and a word there: "word W at pc = p" of 95_test_vectors.md. -/
def at_pc (p : Five) (w : Word) (s : State) : State :=
  withReg (.instrMem ⟨p.toNat, p.isLt⟩) w (withLaneRec (fun r => { r with pc := p }) s)

/-- SM0_PINCTRL. -/
abbrev pinctrl (v : Word) : State → State := withReg (.sm 0 .pinctrl) v

/-- SM0_SHIFTCTRL. -/
abbrev shiftctrl (v : Word) : State → State := withReg (.sm 0 .shiftctrl) v

/-- SM0_EXECCTRL. -/
abbrev execctrl (v : Word) : State → State := withReg (.sm 0 .execctrl) v

/-- X and Y of the active lane. -/
abbrev scratch (x y : Word) : State → State := withLaneRec fun r => { r with x := x, y := y }

/-- The FIFOs of the active lane. -/
abbrev fifos (tx rx : List Word) : State → State := withLaneRec fun r => { r with txf := tx, rxf := rx }

/-- The bit counters of the active lane. -/
abbrev counters (o i : Fin 33) : State → State := withLaneRec fun r => { r with osrCount := o, isrCount := i }

/-! ## Well-formedness: each check accepts and refuses -/

theorem test_executable_accepts : (Instr.jmpAlways 0 0).executable ∧ (Instr.waitIrq 0 false 7).executable ∧
    (Instr.push 31 true true).executable ∧ (Instr.setPindirs 0 31).executable := by decide

theorem test_executable_refuses : ¬ (Instr.waitIrq 0 false 8).executable ∧ ¬ (Instr.waitRsvd 0 true 0).executable ∧
    ¬ (Instr.inBits 0 0 0).executable ∧ ¬ (Instr.outBits 0 0 0).executable ∧ ¬ (Instr.mov 0 0 0 0).executable ∧
    ¬ (Instr.irq 0 false false 0).executable ∧ ¬ (Instr.setRsvd3 0 0).executable ∧
    ¬ (Instr.setRsvd5 0 0).executable ∧ ¬ (Instr.setRsvd6 0 0).executable ∧ ¬ (Instr.setRsvd7 0 0).executable := by
  decide

theorem test_inWord : (Config.FieldPos.mk 29 3).inWord ∧ ¬ (Config.FieldPos.mk 30 3).inWord ∧
    ¬ (Config.FieldPos.mk 4 0).inWord := by decide

theorem test_apart : (Config.FieldPos.mk 0 5).apart ⟨5, 5⟩ ∧ ¬ (Config.FieldPos.mk 0 6).apart ⟨5, 5⟩ := by decide

theorem test_layout_accepts_default : Config.layoutOk defaultLayout = true := by decide

/-- A field outside its register, two fields of one register that overlap, and a SET_COUNT too narrow for its reset
value 5. -/
theorem test_layout_refuses : Config.layoutOk { defaultLayout with clkdivInt := ⟨20, 16⟩ } = false ∧
    Config.layoutOk { defaultLayout with setBase := ⟨4, 5⟩ } = false ∧
    Config.layoutOk { defaultLayout with setCount := ⟨26, 2⟩ } = false := by decide

/-- A layout and a numbering that are not the defaults: JMP_PIN moved to [4:0], WRAP_TOP to [9:5], SET_COUNT six bits
wide at [25:20]; JMP !X and X-- swapped, X and PINS swapped. -/
def otherParams : Config.Params where
  layout := { defaultLayout with jmpPin := ⟨0, 5⟩, wrapTop := ⟨5, 5⟩, setCount := ⟨20, 6⟩ }
  enums :=
    { defaultEnums with
      jmp := { defaultEnums.jmp with notX := 2, xDec := 1 }
      set := { defaultEnums.set with x := 0, pins := 1, rsvd3 := 7, rsvd7 := 3 } }

theorem test_params_ok : defaultParams.ok = true ∧ otherParams.ok = true := by decide

/-- Two members with one number in each enum, and JMP Always not 0. -/
theorem test_enums_refuses :
    Config.enumsOk { defaultEnums with jmp := { defaultEnums.jmp with pin := 7 } } = false ∧
    Config.enumsOk { defaultEnums with wait := { defaultEnums.wait with irq := 3 } } = false ∧
    Config.enumsOk { defaultEnums with set := { defaultEnums.set with y := 1 } } = false ∧
    Config.enumsOk { defaultEnums with jmp := { defaultEnums.jmp with always := 1, notX := 0 } } = false := by decide

theorem test_construct_refuses : construct { defaultParams with layout := { defaultLayout with setBase := ⟨4, 5⟩ } } 0
    ⟨0, 0⟩ = .refused := by decide

theorem test_memory_form : Memory.wf [(0x0DC, 0xC0), (0x0DD, 0x03)] = true ∧
    Memory.wf [(0x0DD, 0x03), (0x0DC, 0xC0)] = false ∧ Memory.wf [(0x0DC, 1), (0x0DC, 2)] = false ∧
    Memory.wf [(0x0DF, 0x14)] = false ∧ Memory.wf [(0x144, 1)] = false := by decide

/-- The decoder with the default numbering. -/
abbrev dec : InstrWord → Instr := decodeInstr defaultEnums

/-! ## Decoding: words written out from the encodings of R71 to R80, `opcode ds low byte` -/

theorem test_decode_jmp : dec 0b0000000100000111 = .jmpAlways 1 7 ∧
    dec 0b0000001000100110 = .jmpNotX 2 6 ∧ dec 0b0001111101011010 = .jmpXDec 31 26 ∧
    dec 0b0000000001100010 = .jmpNotY 0 2 ∧ dec 0b0000010010000101 = .jmpYDec 4 5 ∧
    dec 0b0000100010101001 = .jmpXNeY 8 9 ∧ dec 0b0001000011000100 = .jmpPin 16 4 ∧
    dec 0b0000000011111111 = .jmpNotOsre 0 31 := by decide

theorem test_decode_wait : dec 0b0010000010000101 = .waitGpio 0 true 5 ∧
    dec 0b0010000100100011 = .waitPin 1 false 3 ∧ dec 0b0010001111011111 = .waitIrq 3 true 31 ∧
    dec 0b0011111111111111 = .waitRsvd 31 true 31 := by decide

theorem test_decode_in_out : dec 0b0100101001100001 = .inBits 10 3 1 ∧
    dec 0b0111111100000000 = .outBits 31 0 0 ∧ dec 0b0110000010100111 = .outBits 0 5 7 := by decide

/-- PUSH and PULL by bit 7, the low five bits ignored (R77, R86). -/
theorem test_decode_push_pull : dec 0b1000000001000000 = .push 0 true false ∧
    dec 0b1000001100111111 = .push 3 false true ∧ dec 0b1000000011000000 = .pull 0 true false ∧
    dec 0b1001111111111111 = .pull 31 true true ∧ dec 0b1000000110100000 = .pull 1 false true := by
  decide

/-- MOV, and IRQ with bit 7 ignored (R78, R79, R86). -/
theorem test_decode_mov_irq : dec 0b1010001100011011 = .mov 3 0 3 3 ∧
    dec 0b1010000001001101 = .mov 0 2 1 5 ∧ dec 0b1100000011111111 = .irq 0 true true 31 ∧
    dec 0b1100010101000010 = .irq 5 true false 2 := by decide

theorem test_decode_set : dec 0b1110001000010101 = .setPins 2 21 ∧
    dec 0b1110000000111111 = .setX 0 31 ∧ dec 0b1110000101000001 = .setY 1 1 ∧
    dec 0b1110000001100000 = .setRsvd3 0 0 ∧ dec 0b1110000010011111 = .setPindirs 0 31 ∧
    dec 0b1110000010100000 = .setRsvd5 0 0 ∧ dec 0b1110000011000000 = .setRsvd6 0 0 ∧
    dec 0b1110011111100101 = .setRsvd7 7 5 := by decide

/-- Bits [31:16] of the instruction-memory word are ignored (R70; the last two rows of V-DEC). -/
theorem test_decode_upper_half : decode defaultEnums 0xDEAD2085 = .waitGpio 0 true 5 ∧
    decode defaultEnums 0xFFFF0000 = .jmpAlways 0 0 := by
  decide

theorem test_decodeTableWord : decodeTableWord 16 0x2085 = some (.waitGpio 0 true 5) ∧
    decodeTableWord 16 0xE03F = some (.setX 0 31) := by decide

/-- Another numbering: the word of JMP !X is X--, that of SET PINS is SET X, and it is encoded back (R81, R83). -/
theorem test_other_numbering : decodeInstr otherParams.enums 0x0127 = .jmpXDec 1 7 ∧
    decodeInstr otherParams.enums 0xE01F = .setX 0 31 ∧ decodeInstr otherParams.enums 0xE060 = .setRsvd7 0 0 ∧
    encode otherParams.enums (.jmpXDec 1 7) = 0x0127 := by decide

/-- S1 of 95_test_vectors.md. -/
theorem test_encode : encode defaultEnums (.jmpXDec 31 26) = 0x1F5A ∧ encode defaultEnums (.waitGpio 0 true 5) = 0x2085 ∧
    encode defaultEnums (.setPins 2 21) = 0xE215 ∧ encode defaultEnums (.push 0 false false) = 0x8000 ∧
    encode defaultEnums (.irq 0 true true 31) = 0xC07F := by decide

/-! ## Register bank, pin array, FIFO ports -/

/-- V-FLD. -/
theorem test_field_read : getField 0x14000000 defaultLayout.setCount = 5 ∧
    getField 0x0F000F00 defaultLayout.rxEmpty = 15 ∧ getField 0x0001F000 defaultLayout.wrapTop = 31 ∧
    getField 0xFFFFFFFF defaultLayout.setBase = 31 := by decide

/-- V-FLD. -/
theorem test_field_write : setField 0x14000000 defaultLayout.setBase 30 = 0x140003C0 ∧
    setField 0 defaultLayout.setBase 0x3FF = 0x3E0 ∧ setField 0xFFFFFFFF defaultLayout.setCount 0 = 0xE3FFFFFF ∧
    setField 0x000C0000 defaultLayout.pullThresh 8 = 0x100C0000 ∧
    setField 0x0001F000 defaultLayout.jmpPin 7 = 0x0701F000 := by decide

/-- V-MAP after reset. -/
theorem test_reset_bank : bankWord base.mem 0x004 = 0x0F000F00 ∧ bankWord base.mem 0x0C4 = 0 ∧
    bankWord base.mem 0x0C8 = 0x00010000 ∧ bankWord base.mem 0x0E4 = 0x0001F000 ∧
    bankWord base.mem 0x100 = 0x000C0000 ∧ bankWord base.mem 0x124 = 0x14000000 ∧ bankWord base.mem 0x140 = 0 := by
  decide

/-- R31 with another layout: the words differ, the field values do not. -/
theorem test_reset_other_layout : let s := State.atReset otherParams 2 ⟨0, 0⟩
    bankWord s.mem 0x0E4 = 0x3E0 ∧ laneField s 1 .wrapTop = 0x1F ∧ laneField s 1 .jmpPin = 0 ∧
    bankWord s.mem 0x10C = 0x00500000 ∧ laneField s 2 .setCount = 5 := by decide

/-- A step of that block reads the fields and the numbers of its own tables: SET destination 1 is PINS, five pins from
0; with SET_COUNT 33 in the wide field it is OutOfRange (R58); destination 7 is Reserved (R153). -/
theorem test_step_other_tables : let s := State.atReset otherParams 0 ⟨0, 0⟩
    (stepped (withReg (.instrMem 0) 0xE035 s)).map (fun t => (t.gpio.value, (active t).x)) = some (0x15, 0) ∧
    (stepped (pinctrl 0x02100000 (withReg (.instrMem 0) 0xE035 s))).map (fun t => (t.gpio.value, t.halted)) =
      some (0, some (.outOfRange 33)) ∧
    (stepped (withReg (.instrMem 0) 0xE0E0 s)).map (fun t => t.halted) =
      some (some (.unsupportedDestination 7)) := by decide

/-- V-MAP: what is refused, what fails, and a program word. -/
theorem test_host_access : hostOp (.memRead 0x144 4) base = .refused ∧ hostOp (.memRead 0x006 4) base = .refused ∧
    hostOp (.memRead 0x004 1) base = .refused ∧
    hostOp (.setInstructionWord 32 0) base = .failed (.outOfRange 32) ∧
    hostOp (.setInstructionWord 31 0xE03F) base =
      .done { base with mem := [(0xC4, 0x3F), (0xC5, 0xE0)] } none := by decide

/-- V-MAP: TXF0 is passive storage (R45). -/
theorem test_txf_register_is_storage : (active (withReg (.txf 0) 0x55 base)).txf = [] ∧
    bankWord (withReg (.txf 0) 0x55 base).mem 0x010 = 0x55 ∧
    bankWord (withReg (.txf 0) 0x55 base).mem 0x004 = 0x0F000F00 := by decide

/-- V-GPIO. -/
theorem test_ranged_write : rangeWrite 0 30 0b1111 4 = 0xC0000003 ∧ rangeWrite 0xFFFFFFFF 4 0b11010 3 = 0xFFFFFFAF ∧
    rangeWrite 0x12345678 9 0x1F 0 = 0x12345678 ∧ rangeWrite 0 4 0xDEADBEEF 32 = 0xEADBEEFD ∧
    gpioWriteEnableRange 31 2 1 ⟨5, 0⟩ = .ok ⟨5, 0x80000000⟩ := by decide

/-- V-GPIO. -/
theorem test_pin_read : gpioRead 5 ⟨0x20, 0⟩ = true ∧ gpioRead 37 ⟨0x20, 0⟩ = true ∧
    hostOp (.drivePin 5 true) base = .done (withPins 0x20 base) none := by decide

/-- V-FIFO 1 to 4. -/
theorem test_fifo_ports : hostOp (.txPush 0 5) (fifos [1, 2, 3, 4] [] base) = .failed .fifoFull ∧
    hostOp (.rxPop 0) (fifos [] [0x12345678, 0] base) = .done (fifos [] [0] base) (some 0x12345678) ∧
    hostOp (.rxPop 0) base = .failed .fifoEmpty ∧ hostOp (.txPush 4 0) base = .failed (.invalidLaneIndex 4) ∧
    hostOp (.rxPop 7) base = .failed (.invalidLaneIndex 7) := by decide

/-! ## The Step: S2, V-STEP -/

theorem test_pc_range : (active (incPc (withLaneRec (fun r => { r with pc := 31 }) base))).pc = 0 ∧
    (match setPc 32 base with | .next t => (t.halted, (active t).pc) | _ => (none, 1)) =
      (some (.outOfRange 32), 0) := by decide

/-- V-STEP 1. -/
theorem test_delay_charge : (stepped (at_pc 0 0xFF21 base)).map
    (fun t => ((active t).x, (active t).pc, t.pendingDelay)) = some (1, 1, 31) := by decide

/-- V-STEP 2: the word at `pc`, one that would fault, is not fetched. -/
theorem test_delay_stage : (stepped { at_pc 9 0x4021 base with pendingDelay := 3 }).map
    (fun t => ((active t).pc, t.pendingDelay, t.halted)) = some (9, 2, none) := by decide

/-- V-STEP 3, 4 and 5. -/
theorem test_side_set_fault :
    (stepped (pinctrl 0x54000000 (at_pc 0 0xFF21 base))).map (fun t => (t.halted, t.pendingDelay, (active t).x)) =
      some (some .unsupportedInstruction, 7, 0) ∧
    (stepped (pinctrl 0x34000000 (at_pc 4 0x1F00 base))).map (fun t => (t.halted, t.pendingDelay, (active t).pc)) =
      some (some .unsupportedInstruction, 15, 4) ∧
    (stepped (pinctrl 0xB4000000 (at_pc 0 0x1F00 base))).map (fun t => (t.halted, t.pendingDelay)) =
      some (some .unsupportedInstruction, 0) := by decide

/-- V-STEP 6: SIDESET_COUNT 6 and 7 fault too, whatever delay they leave. -/
theorem test_side_set_six_and_seven :
    (stepped (pinctrl 0xD4000000 (at_pc 0 0x0000 base))).map (fun t => (t.halted, (active t).pc)) =
      some (some .unsupportedInstruction, 0) ∧
    (stepped (pinctrl 0xF4000000 (at_pc 0 0xE03F base))).map (fun t => (t.halted, (active t).x)) =
      some (some .unsupportedInstruction, 0) := by decide

/-- V-STEP 7: only the active lane's group is read. -/
theorem test_other_lane : (stepped (withReg (.sm 0 .pinctrl) 0x54000000
    (withReg (.instrMem 0) 0xE03F { base with activeLane := 1 }))).map
    (fun t => (t.lanes.lane1.x, t.lanes.lane1.pc, t.lanes.lane0 == base.lanes.lane0)) = some (31, 1, true) := by decide

/-- V-STEP 8. -/
theorem test_halted_block : stepped { base with halted := some .unsupportedInstruction } = none ∧
    verdict { base with halted := some .unsupportedInstruction } = none ∧
    runLoop 3 { base with halted := some .fifoFull } = ({ base with halted := some .fifoFull }, some .fifoFull) := by
  decide

/-- The word the host asks about runs as the first instruction after reset. -/
theorem test_withFetchWord : (stepped (base.withFetchWord 16 0xE03F)).map (fun t => ((active t).x, (active t).pc)) =
    some (31, 1) := by decide

/-- One pin array for two blocks: what one drives the other reads (R65). -/
theorem test_board : (boardBlock (boardEvent 0 .step ⟨⟨0, 0⟩, [at_pc 0 0xE001 base, base]⟩) 1).map (·.gpio.value) =
    some 1 := by decide

/-! ## JMP -/

/-- V-JMP 2. -/
theorem test_jmp_always : (stepped (at_pc 5 0x001F base)).map (fun t => (active t).pc) = some 31 := by decide

/-- V-JMP 3 and 5. -/
theorem test_jmp_not_x :
    (stepped (at_pc 3 0x0127 base)).map (fun t => ((active t).pc, t.pendingDelay)) = some (7, 1) ∧
    (stepped (at_pc 3 0x0027 (scratch 0x80000000 0 base))).map (fun t => (active t).pc) = some 4 := by decide

/-- V-JMP 6. -/
theorem test_jmp_x_dec_taken : (stepped (at_pc 2 0x0045 (scratch 1 0 base))).map
    (fun t => ((active t).pc, (active t).x)) = some (5, 0) := by decide

/-- V-JMP 9. -/
theorem test_jmp_x_dec_wraps : (stepped (at_pc 31 0x0045 base)).map
    (fun t => ((active t).pc, (active t).x, (active t).y)) = some (0, 0xFFFFFFFF, 0) := by decide

/-- V-JMP 10 and 11. -/
theorem test_jmp_not_y : (stepped (at_pc 9 0x0062 (scratch 5 0 base))).map (fun t => (active t).pc) = some 2 ∧
    (stepped (at_pc 9 0x0062 (scratch 0 7 base))).map (fun t => (active t).pc) = some 10 := by decide

/-- V-JMP 12 and 13. -/
theorem test_jmp_y_dec :
    (stepped (at_pc 0 0x0085 (scratch 0 3 base))).map (fun t => ((active t).pc, (active t).y)) = some (5, 2) ∧
    (stepped (at_pc 0 0x0085 base)).map (fun t => ((active t).pc, (active t).y)) = some (1, 0xFFFFFFFF) := by decide

/-- V-JMP 14 and 15. -/
theorem test_jmp_x_ne_y : (stepped (at_pc 0 0x00A9 (scratch 5 5 base))).map (fun t => (active t).pc) = some 1 ∧
    (stepped (at_pc 0 0x00A9 (scratch 5 6 base))).map (fun t => (active t).pc) = some 9 := by decide

/-- V-JMP 16 and 17. -/
theorem test_jmp_pin :
    (stepped (execctrl 0x0701F000 (at_pc 0 0x00C4 (withPins 0x80 base)))).map (fun t => (active t).pc) = some 4 ∧
    (stepped (execctrl 0x0701F000 (at_pc 0 0x00C4 (withPins 0xFFFFFF7F base)))).map (fun t => (active t).pc) =
      some 1 := by decide

/-- V-JMP 19 and 20. -/
theorem test_jmp_not_osre_below : (stepped (at_pc 0 0x00E3 base)).map (fun t => (active t).pc) = some 3 ∧
    (stepped (shiftctrl 0x100C0000 (at_pc 0 0x00E3 base))).map (fun t => (active t).pc) = some 1 := by decide

/-- V-JMP 21 and 22. -/
theorem test_jmp_not_osre_reached :
    (stepped (shiftctrl 0x100C0000 (at_pc 0 0x00E3 (counters 8 0 base)))).map
      (fun t => ((active t).pc, (active t).osrCount)) = some (3, 8) ∧
    (stepped (shiftctrl 0x3E0C0000 (at_pc 0 0x00E3 (counters 32 0 base)))).map (fun t => (active t).pc) = some 3 := by
  decide

/-! ## WAIT -/

/-- V-WAIT 5: held, and the charge undone. -/
theorem test_wait_gpio_held : stepped (at_pc 0 0x2585 base) = some (at_pc 0 0x2585 base) ∧
    verdict (at_pc 0 0x2585 base) = some .held := by decide

/-- V-WAIT 6. -/
theorem test_wait_gpio_met : (stepped (at_pc 0 0x2585 (withPins 0x20 base))).map
    (fun t => ((active t).pc, t.pendingDelay)) = some (1, 5) ∧
    verdict (at_pc 0 0x2585 (withPins 0x20 base)) = some .ok := by decide

/-- V-WAIT 8 and 9. -/
theorem test_wait_pin :
    verdict (pinctrl 0x140F0000 (at_pc 0 0x20A3 (withPins 8 base))) = some .held ∧
    (stepped (pinctrl 0x140F0000 (at_pc 0 0x20A3 (withPins 2 base)))).map (fun t => (active t).pc) = some 1 := by
  decide

/-- V-WAIT 12 and 13. -/
theorem test_wait_irq : verdict (at_pc 0 0x20C3 base) = some .held ∧
    (stepped (at_pc 0 0x2047 base)).map (fun t => ((active t).pc, t.irq)) = some (1, 0) := by decide

/-- V-WAIT 14 and 15. -/
theorem test_wait_irq_range : verdict (at_pc 0 0x2048 base) = some (.fault (.indexOutOfRange 8)) ∧
    (stepped (at_pc 0 0x23DF base)).map (fun t => ((active t).pc, t.pendingDelay, t.halted)) =
      some (0, 3, some (.indexOutOfRange 31)) := by decide

/-- V-WAIT 17. -/
theorem test_wait_reserved : (stepped (at_pc 6 0x20E0 base)).map (fun t => ((active t).pc, t.halted)) =
    some (6, some .unsupportedInstruction) := by decide

/-! ## IN, OUT, MOV, IRQ -/

/-- V-UNIMP 2. -/
theorem test_in : (stepped (at_pc 0 0x4521 base)).map (fun t => ((active t).pc, t.pendingDelay, t.halted)) =
    some (0, 5, some .unsupportedInstruction) := by decide

/-- V-UNIMP 3. -/
theorem test_out : (stepped (at_pc 3 0x6001 base)).map (fun t => ((active t).pc, (active t).osr, t.halted)) =
    some (3, 0, some .unsupportedInstruction) := by decide

/-- V-UNIMP 4 and 5. -/
theorem test_mov : (stepped (at_pc 0 0xA042 (scratch 3 4 base))).map (fun t => ((active t).x, (active t).y, t.halted)) =
      some (3, 4, some .unsupportedInstruction) ∧
    verdict (at_pc 0 0xA05A base) = some (.fault .unsupportedInstruction) := by decide

/-- V-UNIMP 6 and 7. -/
theorem test_irq : (stepped (at_pc 0 0xC000 base)).map (fun t => (t.irq, t.halted)) =
      some (0, some .unsupportedInstruction) ∧
    verdict (at_pc 0 0xC040 base) = some (.fault .unsupportedInstruction) := by decide

/-! ## PUSH and PULL -/

/-- V-PUSH 9 and 10. -/
theorem test_push :
    (stepped (at_pc 0 0x8020 (withLaneRec (fun r => { r with isr := 0x12345678 }) base))).map
      (fun t => ((active t).rxf, (active t).isr, (active t).pc)) = some ([0x12345678], 0, 1) ∧
    (stepped (shiftctrl 0x008C0000 (at_pc 0 0x8040 (counters 0 8 base)))).map
      (fun t => ((active t).rxf, (active t).isrCount, (active t).pc)) = some ([0], 8, 1) := by decide

/-- V-PUSH 3, 4 and 7: the stall, the fault and the skip on a full RX FIFO. -/
theorem test_push_full :
    (stepped (at_pc 0 0x8320 (fifos [] [1, 2, 3, 4] base))).map (fun t => ((active t).pc, t.pendingDelay, t.halted)) =
      some (0, 3, none) ∧
    (stepped (at_pc 2 0x8000 (fifos [] [1, 2, 3, 4] base))).map (fun t => ((active t).rxf, (active t).pc, t.halted)) =
      some ([1, 2, 3, 4], 2, some .fifoFull) ∧
    (stepped (shiftctrl 0x008C0000 (at_pc 0 0x8060 (fifos [] [1, 2, 3, 4] base)))).map
      (fun t => ((active t).rxf, (active t).pc)) = some ([1, 2, 3, 4], 1) := by decide

/-- V-PULL 1, 3 and 10. -/
theorem test_pull :
    (stepped (at_pc 0 0x8080 (scratch 0x1F 0 base))).map (fun t => ((active t).osr, (active t).pc)) = some (0x1F, 1) ∧
    (stepped (at_pc 0 0x80A0 (fifos [0xA, 0xB] [] base))).map (fun t => ((active t).osr, (active t).txf)) =
      some (0xA, [0xB]) ∧
    (stepped (at_pc 31 0x80A0 (fifos [5] [] base))).map (fun t => ((active t).osr, (active t).pc)) = some (5, 0) := by
  decide

/-- V-PULL 5, 8 and 9: the skip and the stalls. -/
theorem test_pull_skips_and_stalls :
    (stepped (shiftctrl 0x100C0000 (at_pc 0 0x80C0 (fifos [7] [] base)))).map
      (fun t => ((active t).osr, (active t).txf, (active t).pc)) = some (0, [7], 1) ∧
    (stepped (shiftctrl 0x100C0000 (at_pc 0 0x80E0 (counters 8 0 base)))).map (fun t => (active t).pc) = some 0 ∧
    (stepped (at_pc 0 0x81A0 base)).map (fun t => ((active t).pc, t.pendingDelay)) = some (0, 1) := by decide

/-! ## SET -/

/-- V-SET 3 and 7. -/
theorem test_set_pins :
    (stepped (pinctrl 0x140003C0 (at_pc 0 0xE015 base))).map (fun t => (t.gpio.value, (active t).pc)) =
      some (0x40000005, 1) ∧
    (stepped (pinctrl 0x1C000000 (at_pc 0 0xE01F (withPins 0xFFFFFFFF base)))).map (fun t => t.gpio.value) =
      some 0xFFFFFF9F := by decide

/-- V-SET 1 and 15. -/
theorem test_set_x :
    (stepped (at_pc 0 0xE03F (scratch 0xFFFFFFFF 9 base))).map (fun t => ((active t).x, (active t).y, (active t).pc)) =
      some (0x1F, 9, 1) ∧
    (stepped (at_pc 31 0xE021 base)).map (fun t => ((active t).x, (active t).pc)) = some (1, 0) := by decide

/-- V-SET 2. -/
theorem test_set_y : (stepped (at_pc 0 0xE040 (scratch 9 0xFFFFFFFF base))).map
    (fun t => ((active t).x, (active t).y, (active t).pc)) = some (9, 0, 1) := by decide

/-- V-SET 9 and 10. -/
theorem test_set_pindirs : (stepped (at_pc 0 0xE09F base)).map (fun t => (t.gpio.value, t.gpio.oe)) = some (0, 0x1F) ∧
    (stepped (at_pc 0 0xE080 { base with gpio := ⟨6, 0xFFFFFFFF⟩ })).map (fun t => (t.gpio.value, t.gpio.oe)) =
      some (6, 0xFFFFFFE0) := by decide

/-- V-SET 11 to 14. -/
theorem test_set_reserved : verdict (at_pc 0 0xE060 base) = some (.fault (.unsupportedDestination 3)) ∧
    verdict (at_pc 0 0xE0A0 base) = some (.fault (.unsupportedDestination 5)) ∧
    verdict (at_pc 0 0xE0C0 base) = some (.fault (.unsupportedDestination 6)) ∧
    (stepped (at_pc 0 0xE7E5 base)).map (fun t => ((active t).pc, t.pendingDelay, t.halted)) =
      some (0, 7, some (.unsupportedDestination 7)) := by decide

/-! ## Witnesses: states and operands that meet the hypotheses of each statement, with a clause's boundary values -/

theorem base_off : base.sideSetOff := show sidesetCount base = 0 by decide

theorem witness_StepRunsFetchedInstruction : base.atFetch ∧
    decode base.enums (bankWord base.mem (instrOffset (active base).pc.toNat)) = .jmpAlways 0 0 ∧
    (at_pc 31 0xE215 base).atFetch ∧ (at_pc 31 0xE215 base).fetched = .setPins 2 21 :=
  ⟨⟨rfl, rfl⟩, by decide, ⟨rfl, rfl⟩, by decide⟩

theorem witness_LoadedWordRunsNext : (at_pc 31 0 base).atFetch ∧ Memory.wf (at_pc 31 0 base).mem = true :=
  ⟨⟨rfl, rfl⟩, by decide⟩

theorem witness_DelayStageCountsDown : ({ base with pendingDelay := 1 } : State).halted = none ∧
    ({ base with pendingDelay := 1 } : State).pendingDelay ≠ 0 ∧
    ({ base with pendingDelay := 31 } : State).pendingDelay ≠ 0 := by decide

theorem witness_DelayIsSpentBeforeNextFetch : ({ base with pendingDelay := 31 } : State).halted = none ∧
    31 ≤ ({ base with pendingDelay := 31 } : State).pendingDelay.toNat := by decide

theorem witness_HaltedBlockHasNoStep : ({ base with halted := some .fifoFull } : State).halted = some .fifoFull := rfl

theorem witness_UnhaltedBlockAlwaysSteps : base.halted = none := rfl

theorem base_inv : base.Inv := ⟨by decide, by decide, by decide, fun _ h => nomatch h⟩

/-- A state with the invariant whose Step pushes the fourth word, and one whose Step latches a fault. -/
theorem witness_StepKeepsInvariant :
    (∃ t, (at_pc 0 0x8000 (fifos [] [1, 2, 3] base)).Inv ∧ step (at_pc 0 0x8000 (fifos [] [1, 2, 3] base)) = .next t) ∧
    ∃ t, (at_pc 0 0x8000 (fifos [1, 2, 3, 4] [1, 2, 3, 4] base)).Inv ∧
      step (at_pc 0 0x8000 (fifos [1, 2, 3, 4] [1, 2, 3, 4] base)) = .next t ∧ t.halted = some .fifoFull :=
  ⟨⟨_, ⟨by decide, by decide, by decide, fun _ h => nomatch h⟩, step_of_stepped rfl⟩,
    _, ⟨by decide, by decide, by decide, fun _ h => nomatch h⟩, step_of_stepped rfl, by decide⟩

theorem witness_EveryRunKeepsInvariant : base.Inv := base_inv

/-- Another bank that agrees on the fetched word and the seven fields and differs elsewhere (CTRL, INSTR_MEM1). -/
theorem witness_StepOnlyReadsItsRegisters :
    let s := at_pc 0 0xE03F base
    let m := (withReg .ctrl 0xFF (withReg (.instrMem 1) 0x4021 s)).mem
    (∃ t, step s = .next t) ∧ m ≠ s.mem ∧
    bankWord m (instrOffset (active s).pc.toNat) = bankWord s.mem (instrOffset (active s).pc.toNat) ∧
    ∀ f ∈ [Config.FieldName.jmpPin, .pushThresh, .pullThresh, .sidesetCount, .setCount, .setBase, .inBase],
      configured { s with mem := m } f = configured s f :=
  ⟨⟨_, step_of_stepped rfl⟩, by decide, by decide, by decide⟩

theorem witness_DecodeEncodeRoundTrip : Config.enumsOk defaultEnums = true ∧ Config.enumsOk otherParams.enums = true := by
  decide

theorem witness_EncodeDecodeKeepsSignificantBits : Config.enumsOk otherParams.enums = true := by decide

theorem witness_ResetMeetsInvariant : defaultParams.ok = true ∧ otherParams.ok = true := by decide

theorem witness_StepTouchesOnlyItsLane : ∃ t, step base = .next t := ⟨_, step_of_stepped rfl⟩

theorem witness_BitCountersKeepResetValue : ∃ t, step (at_pc 0 0x8080 (counters 32 32 base)) = .next t :=
  ⟨_, step_of_stepped rfl⟩

/-- SIDESET_COUNT 1, 4, 5, 6 and 7: the least and the greatest value of each clause. -/
theorem witness_SideSetFaultComesFirst : sidesetCount (pinctrl 0x34000000 base) = 1 ∧
    sidesetCount (pinctrl 0x94000000 base) = 4 ∧ sidesetCount (pinctrl 0xB4000000 base) = 5 ∧
    sidesetCount (pinctrl 0xD4000000 base) = 6 ∧ sidesetCount (pinctrl 0xF4000000 base) = 7 := by decide

/-- A completed, a held and a stalled instruction. -/
theorem witness_DelayIsChargedInEveryCase : base.sideSetOff ∧ (∃ t, exec (.setX 31 1) base = .next t) ∧
    (∃ t, exec (.waitGpio 5 true 5) base = .next t ∧ t = base) ∧ ∃ t, exec (.pull 3 false true) base = .next t :=
  ⟨base_off, ⟨_, exec_of_ran rfl⟩, ⟨_, exec_of_ran rfl, by decide⟩, _, exec_of_ran rfl⟩

/-- SET_COUNT 33 in a six-bit field. -/
abbrev wideCount : State := pinctrl 0x02100000 (State.atReset otherParams 0 ⟨0, 0⟩)

theorem witness_FaultsAreExactlyTheListed :
    (fifos [] [1, 2, 3, 4] base).sideSetOff ∧ (Instr.push 0 false false).executable = true ∧
    (∃ t, exec (.push 0 false false) (fifos [] [1, 2, 3, 4] base) = .next t ∧ t.halted ≠ none) ∧
    (Instr.waitIrq 0 true 7).executable = true ∧ (Instr.waitIrq 0 true 8).executable = false ∧
    (Instr.setRsvd7 0 0).executable = false ∧
    (∃ t, exec (.setPins 0 1) wideCount = .next t ∧ t.halted ≠ none) ∧ wideCount.sideSetOff :=
  ⟨show sidesetCount _ = 0 by decide, rfl, ⟨_, exec_of_ran rfl, by decide⟩, by decide, by decide, rfl,
    ⟨_, exec_of_ran rfl, by decide⟩, show sidesetCount _ = 0 by decide⟩

theorem witness_JmpAlwaysGoesToAddress : base.sideSetOff := base_off

/-- Each register at 0 and at a value with only its highest bit set. -/
theorem witness_JmpOnZeroScratch : base.sideSetOff ∧ (active base).x = 0 ∧ (active base).y = 0 ∧
    (scratch 0x80000000 0x80000000 base).sideSetOff ∧ (active (scratch 0x80000000 0x80000000 base)).x ≠ 0 ∧
    (active (scratch 0x80000000 0x80000000 base)).y ≠ 0 :=
  ⟨base_off, rfl, rfl, show sidesetCount _ = 0 by decide, by decide, by decide⟩

theorem witness_JmpPostDecrement : base.sideSetOff ∧ (active base).x = 0 ∧ (scratch 1 1 base).sideSetOff ∧
    (active (scratch 1 1 base)).x ≠ 0 ∧ (active (scratch 1 1 base)).y ≠ 0 :=
  ⟨base_off, rfl, show sidesetCount _ = 0 by decide, by decide, by decide⟩

theorem witness_JmpOnDifferingScratch : base.sideSetOff ∧ (active base).x = (active base).y ∧
    (scratch 0x80000000 0 base).sideSetOff ∧
    (active (scratch 0x80000000 0 base)).x ≠ (active (scratch 0x80000000 0 base)).y :=
  ⟨base_off, rfl, show sidesetCount _ = 0 by decide, by decide⟩

/-- JMP_PIN 0 and 31 (SM0_EXECCTRL 0x1F01F000). -/
theorem witness_JmpOnConfiguredPin : base.sideSetOff ∧ configured base .jmpPin = 0 ∧
    (execctrl 0x1F01F000 (withPins 0x80000000 base)).sideSetOff ∧
    configured (execctrl 0x1F01F000 (withPins 0x80000000 base)) .jmpPin = 31 :=
  ⟨base_off, by decide, show sidesetCount _ = 0 by decide, by decide⟩

/-- A count one below PULL_THRESH and one that has just reached it. -/
theorem witness_JmpOnOutputBitCount : (shiftctrl 0x100C0000 (counters 7 0 base)).sideSetOff ∧
    (active (shiftctrl 0x100C0000 (counters 7 0 base))).osrCount.val <
      configured (shiftctrl 0x100C0000 (counters 7 0 base)) .pullThresh ∧
    (shiftctrl 0x100C0000 (counters 8 0 base)).sideSetOff ∧
    ¬ (active (shiftctrl 0x100C0000 (counters 8 0 base))).osrCount.val <
      configured (shiftctrl 0x100C0000 (counters 8 0 base)) .pullThresh :=
  ⟨show sidesetCount _ = 0 by decide, by decide, show sidesetCount _ = 0 by decide, by decide⟩

theorem witness_JmpAndWaitFrame : (∃ t, exec (.jmpXDec 1 5) base = .next t) ∧ (∃ t, exec (.jmpAlways 1 5) base = .next t) ∧
    (∃ t, exec (.waitIrq 1 false 7) base = .next t) ∧ (Instr.waitIrq 1 false 7).executable = true ∧ base.sideSetOff :=
  ⟨⟨_, exec_of_ran rfl⟩, ⟨_, exec_of_ran rfl⟩, ⟨_, exec_of_ran rfl⟩, by decide, base_off⟩

/-- A polled bit that is the polarity and one that is not, at pin 31. -/
theorem witness_WaitGpioCompletesOrHolds : base.sideSetOff ∧ base.gpio.value.getLsbD (31 : Five).toNat ≠ true ∧
    (withPins 0x80000000 base).sideSetOff ∧ (withPins 0x80000000 base).gpio.value.getLsbD (31 : Five).toNat = true :=
  ⟨base_off, by decide, show sidesetCount _ = 0 by decide, by decide⟩

/-- The pin index 3 with IN_BASE 30: pin 1. -/
theorem witness_WaitPinCompletesOrHolds : (pinctrl 0x140F0000 (withPins 2 base)).sideSetOff ∧
    ((3 : Five).toNat + configured (pinctrl 0x140F0000 (withPins 2 base)) .inBase) % 32 = 1 :=
  ⟨show sidesetCount _ = 0 by decide, by decide⟩

theorem witness_WaitIrqCompletesHoldsOrFaults : base.sideSetOff ∧ (7 : Five).toNat < 8 ∧ 8 ≤ (8 : Five).toNat ∧
    base.irq.getLsbD 7 = false ∧ ({ base with irq := 0x80 } : State).sideSetOff :=
  ⟨base_off, by decide, by decide, by decide, show sidesetCount _ = 0 by decide⟩

theorem witness_WaitReservedSourceFaults : base.sideSetOff := base_off

theorem witness_HeldExactlyWhenPollDiffers : (at_pc 0 0x2585 base).atFetch ∧ (at_pc 0 0x2585 base).sideSetOff ∧
    (at_pc 0 0x2585 base).fetched = .waitGpio 5 true 5 ∧ verdict (at_pc 0 0x2585 base) = some .held ∧
    (at_pc 0 0x20A3 base).sideSetOff ∧ (at_pc 0 0x20A3 base).fetched = .waitPin 0 true 3 ∧
    (at_pc 0 0x2047 base).sideSetOff ∧ (at_pc 0 0x2047 base).fetched = .waitIrq 0 false 7 ∧ (7 : Five).toNat < 8 :=
  ⟨⟨rfl, rfl⟩, show sidesetCount _ = 0 by decide, by decide, by decide, show sidesetCount _ = 0 by decide, by decide,
    show sidesetCount _ = 0 by decide, by decide, by decide⟩

theorem witness_WaitForSetFlagHoldsForever : (at_pc 0 0x20C7 base).atFetch ∧ (at_pc 0 0x20C7 base).sideSetOff ∧
    (at_pc 0 0x20C7 base).irq = 0 ∧ (at_pc 0 0x20C7 base).fetched = .waitIrq 0 true 7 ∧ (7 : Five).toNat < 8 :=
  ⟨⟨rfl, rfl⟩, show sidesetCount _ = 0 by decide, rfl, by decide, by decide⟩

/-- Room for one word; without IFFULL and with IFFULL at the threshold. -/
theorem witness_PushMovesIsrToRxFifo : (fifos [] [1, 2, 3] base).sideSetOff ∧
    (active (fifos [] [1, 2, 3] base)).rxf.length < 4 ∧
    configured (fifos [] [1, 2, 3] base) .pushThresh ≤ (active (fifos [] [1, 2, 3] base)).isrCount.val ∧
    configured (shiftctrl 0x008C0000 (counters 0 8 base)) .pushThresh ≤
      (active (shiftctrl 0x008C0000 (counters 0 8 base))).isrCount.val :=
  ⟨show sidesetCount _ = 0 by decide, by decide, by decide, by decide⟩

/-- A count one below the threshold, and a full FIFO without a skip. -/
theorem witness_PushSkipsOrStalls : (shiftctrl 0x008C0000 (counters 0 7 base)).sideSetOff ∧
    (active (shiftctrl 0x008C0000 (counters 0 7 base))).isrCount.val <
      configured (shiftctrl 0x008C0000 (counters 0 7 base)) .pushThresh ∧
    (fifos [] [1, 2, 3, 4] base).sideSetOff ∧ 4 ≤ (active (fifos [] [1, 2, 3, 4] base)).rxf.length ∧
    configured (fifos [] [1, 2, 3, 4] base) .pushThresh ≤ (active (fifos [] [1, 2, 3, 4] base)).isrCount.val :=
  ⟨show sidesetCount _ = 0 by decide, by decide, show sidesetCount _ = 0 by decide, by decide, by decide⟩

theorem witness_PushFaultsOnFullFifo : (fifos [] [1, 2, 3, 4] base).sideSetOff ∧
    4 ≤ (active (fifos [] [1, 2, 3, 4] base)).rxf.length ∧
    configured (fifos [] [1, 2, 3, 4] base) .pushThresh ≤ (active (fifos [] [1, 2, 3, 4] base)).isrCount.val :=
  ⟨show sidesetCount _ = 0 by decide, by decide, by decide⟩

theorem witness_PullLoadsOsr : (fifos [7] [] base).sideSetOff ∧ (active (fifos [7] [] base)).txf = 7 :: [] ∧
    configured (fifos [7] [] base) .pullThresh ≤ (active (fifos [7] [] base)).osrCount.val ∧ base.sideSetOff ∧
    (active base).txf = [] ∧ configured base .pullThresh ≤ (active base).osrCount.val :=
  ⟨show sidesetCount _ = 0 by decide, by decide, by decide, base_off, by decide, by decide⟩

theorem witness_PullSkipsOrStalls : (shiftctrl 0x100C0000 (counters 7 0 base)).sideSetOff ∧
    (active (shiftctrl 0x100C0000 (counters 7 0 base))).osrCount.val <
      configured (shiftctrl 0x100C0000 (counters 7 0 base)) .pullThresh ∧ base.sideSetOff ∧
    (active base).txf = [] ∧ configured base .pullThresh ≤ (active base).osrCount.val :=
  ⟨show sidesetCount _ = 0 by decide, by decide, base_off, by decide, by decide⟩

theorem witness_PushPullFrame : (∃ t, exec (.push 1 false false) base = .next t) ∧
    (∃ t, exec (.pull 1 false false) base = .next t) ∧ base.sideSetOff :=
  ⟨⟨_, exec_of_ran rfl⟩, ⟨_, exec_of_ran rfl⟩, base_off⟩

theorem witness_UnimplementedKindsFault : base.sideSetOff ∧ (Instr.inBits 1 7 31).kind = .inBits ∧
    (Instr.outBits 1 7 31).kind = .outBits ∧ (Instr.mov 1 7 3 7).kind = .mov ∧
    (Instr.irq 1 true true 31).kind = .irq := ⟨base_off, rfl, rfl, rfl, rfl⟩

theorem witness_SetWritesScratch : base.sideSetOff := base_off

/-- SET_COUNT 7 (the greatest) from SET_BASE 0, and SET_COUNT 5 across pin 31: pins 30 to 2 are written, 3 is not. -/
theorem witness_SetPinsWritesValuePlane : (pinctrl 0x1C000000 base).sideSetOff ∧
    6 < configured (pinctrl 0x1C000000 base) .setCount ∧ configured (pinctrl 0x1C000000 base) .setCount ≤ 32 ∧
    wideCount.sideSetOff ∧ configured wideCount .setCount = 33 ∧ (pinctrl 0x140003C0 base).sideSetOff ∧
    (configured (pinctrl 0x140003C0 base) .setBase + 4) % 32 = 2 ∧
    ∀ i, i < configured (pinctrl 0x140003C0 base) .setCount →
      3 ≠ (configured (pinctrl 0x140003C0 base) .setBase + i) % 32 :=
  ⟨show sidesetCount _ = 0 by decide, by decide, by decide, show sidesetCount _ = 0 by decide, by decide, show sidesetCount _ = 0 by decide, by decide, by decide⟩

/-- SET_COUNT 0: no pin is written, every pin falls under the last clause. -/
theorem witness_SetPindirsWritesEnablePlane : (pinctrl 0x1C000000 base).sideSetOff ∧
    6 < configured (pinctrl 0x1C000000 base) .setCount ∧ configured (pinctrl 0x1C000000 base) .setCount ≤ 32 ∧
    wideCount.sideSetOff ∧ configured wideCount .setCount = 33 ∧ (pinctrl 0 base).sideSetOff ∧
    ∀ i, i < configured (pinctrl 0 base) .setCount → 31 ≠ (configured (pinctrl 0 base) .setBase + i) % 32 :=
  ⟨show sidesetCount _ = 0 by decide, by decide, by decide, show sidesetCount _ = 0 by decide, by decide, show sidesetCount _ = 0 by decide, by decide⟩

theorem witness_SetReservedDestinationFaults : base.sideSetOff := base_off

theorem witness_SetAndUnimplementedFrame : (∃ t, exec (.setPins 1 5) base = .next t) ∧
    (∃ t, exec (.setX 1 5) base = .next t) ∧ (∃ t, exec (.mov 1 0 0 0) base = .next t) ∧ base.sideSetOff ∧
    (Instr.setPins 1 5).executable = true ∧ configured base .setCount ≤ 32 :=
  ⟨⟨_, exec_of_ran rfl⟩, ⟨_, exec_of_ran rfl⟩, ⟨_, exec_of_ran rfl⟩, base_off, rfl, by decide⟩

/-- Counts 0 and 32, and a pin outside the range 30 to 1. -/
theorem witness_RangedWritePlacesBits : 0 ≤ 32 ∧ 32 ≤ 32 ∧ 31 < 32 ∧ ∀ i, i < 4 → 2 ≠ (30 + i) % 32 := by decide

theorem witness_OversizedRangedWriteFails : 32 < 33 := by decide

theorem witness_EnvironmentDrivesOnePin : 6 % 32 ≠ 37 % 32 ∧ gpioRead 5 ⟨0x20, 0⟩ = true := by decide

theorem witness_RegisterWriteReadsBack : Memory.wf base.mem = true ∧ Reg.irq1Ints ≠ Reg.ctrl := by decide

/-- A width that is not 4, an address that is not aligned, and the first address past the last register. -/
theorem witness_OtherAccessesAreRefused : 2 ≠ 4 ∧ 0x006 % 4 ≠ 0 ∧ 0x140 < 0x144 := by decide

theorem witness_FieldWriteKeepsOtherFields : Memory.wf base.mem = true ∧ Config.layoutOk base.layout = true ∧
    Config.layoutOk otherParams.layout = true ∧
    fieldReg 1 .setBase ≠ fieldReg 0 .setBase ∧ Config.FieldName.setCount ≠ .setBase := by decide

/-- The first and the last index, and the first past it. -/
theorem witness_ProgramLoadStoresOneWord : Memory.wf base.mem = true ∧ 0 ≤ 31 ∧ 31 ≤ 31 ∧ 31 < 32 ∧
    regOffset (.instrMem 30) ≠ 0x048 + 4 * 31 := by decide

theorem witness_LaneSelectorsReachTheirLane : Memory.wf base.mem = true ∧ Reg.sm 3 .addr ≠ Reg.sm 2 .pinctrl ∧
    otherParams.ok = true := by decide

theorem witness_ResetBankContents : Config.layoutOk otherParams.layout = true ∧ defaultParams.layout = defaultLayout ∧
    Config.layoutOk defaultParams.layout = true := by decide

theorem witness_UnloadedBlockJumpsToItself : otherParams.ok = true := by decide

theorem witness_BadLaneSelectorFails : 4 ≤ 4 ∧ 4 ≤ 7 := by decide

theorem witness_HostFifoPortsKeepOrder : ([1, 2, 3, 4] : List Word).length ≤ 4 ∧ (getLane base.lanes 0).txf = [] ∧
    (getLane (fifos [1, 2, 3] [] base).lanes 0).txf.length < 4 ∧
    4 ≤ (getLane (fifos [1, 2, 3, 4] [] base).lanes 0).txf.length ∧
    (getLane (fifos [] [9, 8] base).lanes 0).rxf = 9 :: [8] ∧ (getLane base.lanes 0).rxf = [] := by decide

/-- A run that ends at a fault in its second Step, and one that returns none. -/
theorem witness_RunLoopEndsAtFirstFault : (at_pc 0 0xE001 (withReg (.instrMem 1) 0xA300 base)).halted = none ∧
    (runLoop 5 (at_pc 0 0xE001 (withReg (.instrMem 1) 0xA300 base))).2 = some .unsupportedInstruction ∧
    base.halted = none ∧ runLoop 2 base = (base, none) := by decide

theorem witness_BlocksShareOnlyThePinArray : boardBlock ⟨⟨5, 6⟩, [base, base]⟩ 1 = some { base with gpio := ⟨5, 6⟩ } := by
  decide

end Sys2Proof.Tests
end

/-! SUPPORT. What an instruction and what a host action can do to a block, each said once, and the statements about
the state settled from that: the invariant, the bit counters and the frames. -/

namespace Sys2Proof.Machine

/-! ## What an instruction can write (R98) -/

/-- The lane records an instruction can leave for a record `r`: `pc` may move with any of them, and of the rest only the
registers its kind names can change; a PUSH leaves at most four words where there were not more before. -/
def mayWriteLane (i : Instr) (r r' : Lane) : Prop :=
  match i with
  | .jmpXDec .. | .setX .. => ∃ p v, r' = { r with pc := p, x := v }
  | .jmpYDec .. | .setY .. => ∃ p v, r' = { r with pc := p, y := v }
  | .push .. => ∃ p v q, q.length ≤ max Config.fifoDepth r.rxf.length ∧ r' = { r with pc := p, isr := v, rxf := q }
  | .pull .. => ∃ p v q, q.length ≤ r.txf.length ∧ r' = { r with pc := p, osr := v, txf := q }
  | _ => ∃ p, r' = { r with pc := p }

/-- The pin arrays an instruction can leave: SET PINS writes the value plane, SET PINDIRS the output-enable plane. -/
def mayDrive (i : Instr) (g g' : Gpio) : Prop :=
  match i with
  | .setPins .. => g'.oe = g.oe
  | .setPindirs .. => g'.value = g.value
  | _ => g' = g

/-- The faults an instruction can raise once its delay is charged with SIDESET_COUNT 0 (R85, R120, R58). -/
def mayFault (i : Instr) (s : State) (k : Fault) : Prop :=
  match i with
  | .push .. => k = .fifoFull
  | .waitIrq _ _ index => 8 ≤ index.toNat ∧ k = .indexOutOfRange index
  | .waitRsvd .. | .inBits .. | .outBits .. | .mov .. | .irq .. => k = .unsupportedInstruction
  | .setPins .. | .setPindirs .. => 32 < setPinCount s ∧ k = .outOfRange (setPinCount s)
  | .setRsvd3 .. => k = .unsupportedDestination s.enums.set.rsvd3
  | .setRsvd5 .. => k = .unsupportedDestination s.enums.set.rsvd5
  | .setRsvd6 .. => k = .unsupportedDestination s.enums.set.rsvd6
  | .setRsvd7 .. => k = .unsupportedDestination s.enums.set.rsvd7
  | _ => False

/-- Everything instruction `i` can do to the block `s`, whatever its outcome. -/
structure Footprint (i : Instr) (s t : State) : Prop where
  untouched : s.sameUntouched t
  lane : mayWriteLane i (active s) (active t)
  pins : mayDrive i s.gpio t.gpio
  latch : t.halted = s.halted ∨
    ∃ k, t.halted = some k ∧ (¬ s.sideSetOff ∧ k = .unsupportedInstruction ∨ mayFault i s k)

theorem mayWriteLane_pc (i : Instr) (r : Lane) (p : Five) : mayWriteLane i r { r with pc := p } := by
  cases i with
  | jmpXDec | setX => exact ⟨p, r.x, rfl⟩
  | jmpYDec | setY => exact ⟨p, r.y, rfl⟩
  | push => exact ⟨p, r.isr, r.rxf, le_max_right _ _, rfl⟩
  | pull => exact ⟨p, r.osr, r.txf, le_rfl, rfl⟩
  | _ => exact ⟨p, rfl⟩

theorem mayDrive_refl (i : Instr) (g : Gpio) : mayDrive i g g := by
  cases i <;> rfl

/-! ## The footprint of each outcome -/

theorem Footprint.refl (i : Instr) (s : State) : Footprint i s s where
  untouched := .refl s
  lane := mayWriteLane_pc i (active s) (active s).pc
  pins := mayDrive_refl i s.gpio
  latch := .inl rfl

/-- SIDESET_COUNT is not 0: the charge and UnsupportedInstruction (R94). -/
theorem Footprint.sideSet (i : Instr) (ds : Five) {s : State} (h : ¬ s.sideSetOff) :
    Footprint i s { chargeDelay ds s with halted := some .unsupportedInstruction } where
  untouched := sameUntouched_chargeDelay ds s
  lane := by
    have e : active (chargeDelay ds s) = active s := active_chargeDelay ds s
    exact e.symm ▸ (Footprint.refl i s).lane
  pins := (chargeDelay_gpio ds s).symm ▸ mayDrive_refl i s.gpio
  latch := .inr ⟨_, rfl, .inl ⟨h, rfl⟩⟩

theorem Footprint.faulted {i : Instr} {s : State} {k : Fault} (h : mayFault i s k) (ds : Five) :
    Footprint i s (s.faulted ds k) where
  untouched := .refl s
  lane := (Footprint.refl i s).lane
  pins := mayDrive_refl i s.gpio
  latch := .inr ⟨k, rfl, .inr h⟩

theorem Footprint.completed {i : Instr} {s : State} {r : Lane} (h : mayWriteLane i (active s) r) (ds : Five) :
    Footprint i s (s.completed ds r) where
  untouched := sameUntouched_completed s ds r
  lane := (active_setActive (setDelay ds s) r).symm ▸ h
  pins := mayDrive_refl i s.gpio
  latch := .inl rfl

/-- Completion with nothing but `pc` written in the lane's record. -/
theorem Footprint.moved (i : Instr) (s : State) (ds p : Five) :
    Footprint i s (s.completed ds { active s with pc := p }) :=
  .completed (mayWriteLane_pc i (active s) p) ds

/-- Completion with a plane of the pin array written. -/
theorem Footprint.drove {i : Instr} {s : State} {g : Gpio} (h : mayDrive i s.gpio g) (ds : Five) :
    Footprint i s { s.completed ds (active s).advanced with gpio := g } where
  untouched := sameUntouched_completed s ds (active s).advanced
  lane := (Footprint.moved i s ds _).lane
  pins := h
  latch := .inl rfl

/-! ## The shared meanings, with SIDESET_COUNT 0 -/

theorem completed_active (s : State) (ds : Five) : s.completed ds (active s) = setDelay ds s :=
  setActive_active (setDelay ds s)

/-- The charge alone: a stall (R122). -/
theorem Footprint.stalled (i : Instr) (s : State) (ds : Five) : Footprint i s (setDelay ds s) :=
  completed_active s ds ▸ .moved i s ds (active s).pc

/-- A JMP whose condition leaves the lane's record as `r` moves `pc` only (R100). -/
theorem jump_footprint {i : Instr} {s t : State} (hs : s.sideSetOff) {cond : State → Bool × State} {ds a : Five}
    (h : jump cond ds a s = .next t) (r : Lane) (hc : (cond (setDelay ds s)).2 = s.completed ds r)
    (hr : ∀ p, mayWriteLane i (active s) { r with pc := p }) : Footprint i s t := by
  have e : active (s.completed ds r) = r := active_setActive _ r
  rw [jump_off hs, hc, e, Host.Outcome.next.injEq] at h
  have hp : ∃ p, t = s.completed ds { r with pc := p } := by
    rw [← h]
    split
    · exact ⟨a, by simp [State.completed]⟩
    · exact ⟨r.pc + 1, by simp [State.completed, incPc]⟩
  obtain ⟨p, rfl⟩ := hp
  exact .completed (hr p) ds

/-- A JMP whose condition changes nothing. -/
theorem jump_footprint_of_test {i : Instr} {s t : State} (hs : s.sideSetOff) {cond : State → Bool × State}
    {ds a : Five} (h : jump cond ds a s = .next t) (hc : (cond (setDelay ds s)).2 = setDelay ds s) :
    Footprint i s t :=
  jump_footprint hs h (active s) (hc.trans (completed_active s ds).symm) (mayWriteLane_pc i _)

/-- A WAIT advances, holds or raises what its poll raises (R110, R115). -/
theorem waitFor_footprint {i : Instr} {s t : State} (hs : s.sideSetOff) {poll : State → Except Fault Bool} {ds : Five}
    {polarity : Bool} (h : waitFor poll ds polarity s = .next t)
    (hk : ∀ k, poll (setDelay ds s) = .error k → mayFault i s k) : Footprint i s t := by
  cases hp : poll (setDelay ds s) with
  | error k =>
    rw [waitFor_error hs hp, Host.Outcome.next.injEq] at h
    exact h ▸ .faulted (hk k hp) ds
  | ok b =>
    rw [waitFor_ok hs hp, Host.Outcome.next.injEq] at h
    subst h
    split
    · exact .moved i s ds _
    · exact .refl i s

theorem execPush_footprint {s t : State} (hs : s.sideSetOff) {ds : Five} {ifFull block : Bool}
    (h : execPush ds ifFull block s = .next t) : Footprint (.push ds ifFull block) s t := by
  rw [execPush_off hs] at h
  split at h
  · cases h
    exact .moved _ s ds _
  split at h
  · cases h
    exact .stalled _ s ds
  rcases Nat.lt_or_ge (active s).rxf.length 4 with room | full
  · rw [pushTransfer_room (s := setDelay ds s) room] at h
    cases h
    have hq : ((active s).rxf ++ [(active s).isr]).length ≤ max Config.fifoDepth (active s).rxf.length := by
      rw [List.length_append, List.length_singleton]
      exact le_max_of_le_left room
    have hlane : mayWriteLane (.push ds ifFull block) (active s)
        { (active s).advanced with rxf := (active s).rxf ++ [(active s).isr], isr := 0 } := ⟨_, _, _, hq, rfl⟩
    exact .completed hlane ds
  · rw [pushTransfer_full (s := setDelay ds s) full] at h
    cases h
    exact .faulted (i := .push ds ifFull block) rfl ds

theorem execPull_footprint {s t : State} (hs : s.sideSetOff) {ds : Five} {ifEmpty block : Bool}
    (h : execPull ds ifEmpty block s = .next t) : Footprint (.pull ds ifEmpty block) s t := by
  rw [execPull_off hs] at h
  split at h
  · cases h
    exact .moved _ s ds _
  split at h
  · cases h
    exact .stalled _ s ds
  cases hq : (active s).txf with
  | nil =>
    rw [pullTransfer_nil (s := setDelay ds s) hq] at h
    cases h
    have hlane : mayWriteLane (.pull ds ifEmpty block) (active s)
        { (active s).advanced with osr := (active s).x } := ⟨_, _, _, le_rfl, rfl⟩
    exact .completed hlane ds
  | cons v q =>
    rw [pullTransfer_cons (s := setDelay ds s) hq] at h
    cases h
    have hlane : mayWriteLane (.pull ds ifEmpty block) (active s)
        { (active s).advanced with osr := v, txf := q } := ⟨_, _, q, by simp [hq], rfl⟩
    exact .completed hlane ds

theorem setScratch_footprint {i : Instr} {s t : State} (hs : s.sideSetOff) {write : Lane → Lane} {ds : Five}
    (h : setScratch write ds s = .next t) (hw : mayWriteLane i (active s) (write (active s)).advanced) :
    Footprint i s t := by
  rw [setScratch_off hs, Host.Outcome.next.injEq] at h
  exact h ▸ .completed hw ds

/-- A SET to a plane writes what its ranged write writes, or raises what that raises. -/
theorem setPlane_footprint {i : Instr} {s t : State} (hs : s.sideSetOff)
    {write : Nat → Nat → Word → Gpio → Except Fault Gpio} {ds data : Five} (h : setPlane write ds data s = .next t)
    (hg : ∀ g, write (setBaseIndex s) (setPinCount s) (immediate data) s.gpio = .ok g → mayDrive i s.gpio g)
    (hk : ∀ k, write (setBaseIndex s) (setPinCount s) (immediate data) s.gpio = .error k → mayFault i s k) :
    Footprint i s t := by
  cases hw : write (setBaseIndex s) (setPinCount s) (immediate data) s.gpio with
  | ok g =>
    rw [setPlane_off hs hw, Host.Outcome.next.injEq] at h
    exact h ▸ .drove (hg g hw) ds
  | error k =>
    rw [setPlane_error hs hw, Host.Outcome.next.injEq] at h
    exact h ▸ .faulted (hk k hw) ds

theorem setReserved_footprint {i : Instr} {s t : State} (hs : s.sideSetOff) {number : Config.SetNumbers → BitVec 3}
    {ds : Five} (h : setReserved number ds s = .next t)
    (hk : mayFault i s (.unsupportedDestination (number s.enums.set))) : Footprint i s t := by
  rw [setReserved_off hs, Host.Outcome.next.injEq] at h
  exact h ▸ .faulted hk ds

theorem unimplemented_footprint {i : Instr} {s t : State} (hs : s.sideSetOff) {ds : Five}
    (h : unimplemented ds s = .next t) (hk : mayFault i s .unsupportedInstruction) : Footprint i s t := by
  rw [unimplemented_off hs, Host.Outcome.next.injEq] at h
  exact h ▸ .faulted hk ds

theorem irqFlag_error {index : Five} {s : State} {k : Fault} (h : irqFlag index s = .error k) :
    8 ≤ index.toNat ∧ k = .indexOutOfRange index := by
  unfold irqFlag at h
  split at h
  · cases h
    exact ⟨‹_›, rfl⟩
  · cases h

theorem gpioWriteRange_ok {base count : Nat} {bits : Word} {g g' : Gpio}
    (h : gpioWriteRange base count bits g = .ok g') : g'.oe = g.oe := by
  unfold gpioWriteRange at h
  split at h <;> cases h
  rfl

theorem gpioWriteEnableRange_ok {base count : Nat} {bits : Word} {g g' : Gpio}
    (h : gpioWriteEnableRange base count bits g = .ok g') : g'.value = g.value := by
  unfold gpioWriteEnableRange at h
  split at h <;> cases h
  rfl

theorem gpioWriteRange_error {base count : Nat} {bits : Word} {g : Gpio} {k : Fault}
    (h : gpioWriteRange base count bits g = .error k) : 32 < count ∧ k = .outOfRange count := by
  unfold gpioWriteRange at h
  split at h <;> cases h
  exact ⟨‹_›, rfl⟩

theorem gpioWriteEnableRange_error {base count : Nat} {bits : Word} {g : Gpio} {k : Fault}
    (h : gpioWriteEnableRange base count bits g = .error k) : 32 < count ∧ k = .outOfRange count := by
  unfold gpioWriteEnableRange at h
  split at h <;> cases h
  exact ⟨‹_›, rfl⟩

/-! ## What an instruction, and what a Step, can do -/

/-- The 26 arms with SIDESET_COUNT 0. -/
theorem exec_footprint_of_sideSetOff {i : Instr} {s t : State} (hs : s.sideSetOff) (h : exec i s = .next t) :
    Footprint i s t := by
  cases i with
  | jmpAlways | jmpNotX | jmpNotY | jmpXNeY | jmpPin | jmpNotOsre => exact jump_footprint_of_test hs h rfl
  | jmpXDec => exact jump_footprint hs h { active s with x := (active s).x - 1 } rfl fun _ => ⟨_, _, rfl⟩
  | jmpYDec => exact jump_footprint hs h { active s with y := (active s).y - 1 } rfl fun _ => ⟨_, _, rfl⟩
  | waitGpio ds polarity index =>
    exact waitFor_footprint (poll := fun u => .ok (gpioRead index.toNat u.gpio)) hs h nofun
  | waitPin ds polarity index =>
    exact waitFor_footprint (poll := fun u => .ok (gpioRead (waitPinIndex u index) u.gpio)) hs h nofun
  | waitIrq => exact waitFor_footprint hs h fun _ => irqFlag_error
  | waitRsvd ds polarity index =>
    exact waitFor_footprint (poll := fun _ => .error .unsupportedInstruction) (polarity := polarity) hs h
      fun _ hk => (Except.error.inj hk).symm
  | inBits | outBits | mov | irq => exact unimplemented_footprint hs h rfl
  | push => exact execPush_footprint hs h
  | pull => exact execPull_footprint hs h
  | setX ds data => exact setScratch_footprint (write := fun r => { r with x := immediate data }) hs h ⟨_, _, rfl⟩
  | setY ds data => exact setScratch_footprint (write := fun r => { r with y := immediate data }) hs h ⟨_, _, rfl⟩
  | setPins => exact setPlane_footprint hs h (fun _ => gpioWriteRange_ok) fun _ => gpioWriteRange_error
  | setPindirs =>
    exact setPlane_footprint hs h (fun _ => gpioWriteEnableRange_ok) fun _ => gpioWriteEnableRange_error
  | setRsvd3 | setRsvd5 | setRsvd6 | setRsvd7 => exact setReserved_footprint hs h rfl

/-- An instruction stays within its footprint, with any SIDESET_COUNT. -/
theorem exec_footprint {i : Instr} {s t : State} (h : exec i s = .next t) : Footprint i s t := by
  by_cases hs : s.sideSetOff
  · exact exec_footprint_of_sideSetOff hs h
  · obtain ⟨rest, hrest⟩ := exec_withDelay i s
    rw [hrest, withDelay_on hs, raise, Host.Outcome.next.injEq] at h
    exact h ▸ .sideSet i i.ds hs

/-- A Step that has a next state is the delay stage or the execution of the fetched instruction (R90 to R93). -/
theorem step_cases {s t : State} (h : step s = .next t) :
    s.halted = none ∧ (s.pendingDelay ≠ 0 ∧ t = delayStage s ∨ s.pendingDelay = 0 ∧ exec s.fetched s = .next t) := by
  unfold step at h
  split at h
  · cases h
  next hh =>
    refine ⟨hh, ?_⟩
    split at h
    next hd => exact .inl ⟨hd, (Host.Outcome.next.inj h).symm⟩
    next hd =>
      rw [fetch_eq] at h
      exact .inr ⟨not_not.mp hd, h⟩

/-! ## The frames read off the footprint -/

theorem State.sameUntouched.bankByte_eq {s t : State} (h : s.sameUntouched t) (a : Nat) :
    bankByte t.mem a = bankByte s.mem a := by
  obtain ⟨hmem, -⟩ := h
  rw [hmem]

/-- In particular no instruction writes a bit counter (R17). -/
theorem mayWriteLane_counters {i : Instr} {r r' : Lane} (h : mayWriteLane i r r') :
    r'.osrCount = r.osrCount ∧ r'.isrCount = r.isrCount := by
  cases i with
  | jmpXDec | setX | jmpYDec | setY => obtain ⟨p, v, rfl⟩ := h; exact ⟨rfl, rfl⟩
  | push | pull => obtain ⟨p, v, q, -, rfl⟩ := h; exact ⟨rfl, rfl⟩
  | _ => obtain ⟨p, rfl⟩ := h; exact ⟨rfl, rfl⟩

theorem mayWriteLane_fifosBounded {i : Instr} {r r' : Lane} (h : mayWriteLane i r r') (hr : r.fifosBounded) :
    r'.fifosBounded := by
  obtain ⟨htx, hrx⟩ := hr
  cases i with
  | jmpXDec | setX | jmpYDec | setY => obtain ⟨p, v, rfl⟩ := h; exact ⟨htx, hrx⟩
  | push => obtain ⟨p, v, q, hq, rfl⟩ := h; exact ⟨htx, hq.trans (max_le le_rfl hrx)⟩
  | pull => obtain ⟨p, v, q, hq, rfl⟩ := h; exact ⟨hq.trans htx, hrx⟩
  | _ => obtain ⟨p, rfl⟩ := h; exact ⟨htx, hrx⟩

/-- But for PUSH and PULL no instruction touches a shift register or a FIFO. -/
theorem mayWriteLane_buffers {i : Instr} {r r' : Lane} (h : mayWriteLane i r r') (hpush : i.kind ≠ .push)
    (hpull : i.kind ≠ .pull) : r'.osr = r.osr ∧ r'.isr = r.isr ∧ r'.txf = r.txf ∧ r'.rxf = r.rxf := by
  cases i with
  | jmpXDec | setX | jmpYDec | setY => obtain ⟨p, v, rfl⟩ := h; exact ⟨rfl, rfl, rfl, rfl⟩
  | push => exact absurd rfl hpush
  | pull => exact absurd rfl hpull
  | _ => obtain ⟨p, rfl⟩ := h; exact ⟨rfl, rfl, rfl, rfl⟩

/-- Only X-- and SET X write X. -/
theorem mayWriteLane_x {i : Instr} {r r' : Lane} (h : mayWriteLane i r r') (hdec : ∀ ds a, i ≠ .jmpXDec ds a)
    (hset : ∀ ds d, i ≠ .setX ds d) : r'.x = r.x := by
  cases i with
  | jmpXDec ds a => exact absurd rfl (hdec ds a)
  | setX ds d => exact absurd rfl (hset ds d)
  | jmpYDec | setY => obtain ⟨p, v, rfl⟩ := h; rfl
  | push | pull => obtain ⟨p, v, q, -, rfl⟩ := h; rfl
  | _ => obtain ⟨p, rfl⟩ := h; rfl

/-- Only Y-- and SET Y write Y. -/
theorem mayWriteLane_y {i : Instr} {r r' : Lane} (h : mayWriteLane i r r') (hdec : ∀ ds a, i ≠ .jmpYDec ds a)
    (hset : ∀ ds d, i ≠ .setY ds d) : r'.y = r.y := by
  cases i with
  | jmpYDec ds a => exact absurd rfl (hdec ds a)
  | setY ds d => exact absurd rfl (hset ds d)
  | jmpXDec | setX => obtain ⟨p, v, rfl⟩ := h; rfl
  | push | pull => obtain ⟨p, v, q, -, rfl⟩ := h; rfl
  | _ => obtain ⟨p, rfl⟩ := h; rfl

/-- Only SET writes the pin array. -/
theorem mayDrive_eq {i : Instr} {g g' : Gpio} (h : mayDrive i g g') (hi : i.kind ≠ .set) : g' = g := by
  cases i with
  | setPins | setPindirs => exact absurd rfl hi
  | _ => exact h

theorem mayDrive_value {i : Instr} {g g' : Gpio} (h : mayDrive i g g') (hi : ∀ ds d, i ≠ .setPins ds d) :
    g'.value = g.value := by
  cases i with
  | setPins ds d => exact absurd rfl (hi ds d)
  | setPindirs => exact h
  | _ => exact congrArg Gpio.value h

theorem mayDrive_oe {i : Instr} {g g' : Gpio} (h : mayDrive i g g') (hi : ∀ ds d, i ≠ .setPindirs ds d) :
    g'.oe = g.oe := by
  cases i with
  | setPindirs ds d => exact absurd rfl (hi ds d)
  | setPins => exact h
  | _ => exact congrArg Gpio.oe h

/-- With SIDESET_COUNT 0 an instruction that can raise nothing of its own keeps the latch. -/
theorem Footprint.halted_eq {i : Instr} {s t : State} (h : Footprint i s t) (hs : s.sideSetOff)
    (hk : ∀ k, ¬ mayFault i s k) : t.halted = s.halted := by
  rcases h.latch with heq | ⟨k, -, ⟨hon, -⟩ | hmay⟩
  · exact heq
  · exact absurd hs hon
  · exact absurd hmay (hk k)

/-- Of the encodings R85 does not list, only PUSH can fault, and a SET of a plane with more than 32 pins. -/
theorem not_mayFault_of_executable {i : Instr} {s : State} (hi : i.executable = true) (hpush : i.kind ≠ .push)
    (hset : i.kind = .set → setPinCount s ≤ 32) (k : Fault) : ¬ mayFault i s k := by
  cases i with
  | push => exact absurd rfl hpush
  | waitIrq ds polarity index =>
    intro ⟨h8, _⟩
    exact absurd (of_decide_eq_true hi) (Nat.not_lt.mpr h8)
  | setPins | setPindirs => exact fun ⟨hlt, _⟩ => absurd (hset rfl) (Nat.not_le.mpr hlt)
  | waitRsvd | inBits | outBits | mov | irq | setRsvd3 | setRsvd5 | setRsvd6 | setRsvd7 => cases hi
  | _ => exact id

/-! ## The invariant under a Step (R28) -/

/-- What an instruction can raise, a Step can latch (R151). -/
theorem mayFault_fromStep {i : Instr} {s : State} {k : Fault} (h : mayFault i s k) :
    k.fromStep s.layout s.enums = true := by
  cases i with
  | waitIrq => obtain ⟨h8, rfl⟩ := h; exact decide_eq_true h8
  | setPins | setPindirs =>
    obtain ⟨hlt, rfl⟩ := h
    simp [Fault.fromStep, hlt, setPinCount_lt s]
  | push | waitRsvd | inBits | outBits | mov | irq => cases h; rfl
  | setRsvd3 | setRsvd5 | setRsvd6 | setRsvd7 => cases h; simp [Fault.fromStep]
  | _ => exact h.elim

/-- A block within the footprint of an instruction keeps the invariant. -/
theorem Footprint.inv {i : Instr} {s t : State} (h : Footprint i s t) (hs : s.Inv) : t.Inv := by
  obtain ⟨hfifo, hwf, htables, hlatch⟩ := hs
  obtain ⟨hmem, -, hactive, hlayout, henums, hother⟩ := h.untouched
  refine ⟨fun n => ?_, hmem ▸ hwf, hlayout ▸ henums ▸ htables, fun k hk => ?_⟩
  · by_cases hn : n = s.activeLane
    · have hlane : (active t).fifosBounded := mayWriteLane_fifosBounded h.lane (hfifo _)
      rwa [active, hactive, ← hn] at hlane
    · exact hother n hn ▸ hfifo n
  · rw [hlayout, henums]
    rcases h.latch with heq | ⟨k', hk', hraise⟩
    · exact hlatch k (heq ▸ hk)
    · obtain rfl : k' = k := Option.some.inj (hk'.symm.trans hk)
      rcases hraise with ⟨-, rfl⟩ | hmay
      · rfl
      · exact mayFault_fromStep hmay

theorem step_inv {s t : State} (hs : s.Inv) (h : step s = .next t) : t.Inv := by
  obtain ⟨-, ⟨-, rfl⟩ | ⟨-, hexec⟩⟩ := step_cases h
  · exact hs
  · exact (exec_footprint hexec).inv hs

/-! ## What a host action can do (R53) -/

/-- The blocks an action of the host or the environment can leave: a read leaves the block as it was, any write writes
one register, a port one FIFO, and the environment the pin array. -/
inductive HostEffect (s : State) : State → Prop
  | read : HostEffect s s
  | register (a : Nat) (v : Word) (ha : a + 3 < Config.bankBytes) : HostEffect s { s with mem := bankSetWord s.mem a v }
  | txPush (n : Fin 4) (v : Word) (room : (getLane s.lanes n).txf.length < Config.fifoDepth) :
      HostEffect s { s with
        lanes := setLane s.lanes n { getLane s.lanes n with txf := (getLane s.lanes n).txf ++ [v] } }
  | rxPop (n : Fin 4) (v : Word) (q : List Word) (hq : (getLane s.lanes n).rxf = v :: q) :
      HostEffect s { s with lanes := setLane s.lanes n { getLane s.lanes n with rxf := q } }
  | pins (g : Gpio) : HostEffect s { s with gpio := g }

/-- A call with a lane selector that is done has selected one of the four lanes (R66). -/
theorem withLane_done {n : Nat} {act : Fin 4 → HostResult} {t : State} {reply : Option Word}
    (h : withLane n act = .done t reply) : ∃ lane, act lane = .done t reply := by
  unfold withLane at h
  split at h
  · exact ⟨_, h⟩
  · cases h

theorem hostMemRead_effect {addr width : Nat} {s t : State} {reply : Option Word}
    (h : hostMemRead addr width s = .done t reply) : HostEffect s t := by
  unfold hostMemRead at h
  split at h <;> cases h
  exact .read

theorem accessOk_inBank {addr width : Nat} (h : accessOk addr width = true) : addr + 3 < Config.bankBytes := by
  simp only [accessOk, Config.lastOffset, Bool.and_eq_true, decide_eq_true_eq] at h
  simp only [Config.bankBytes]
  omega

theorem hostMemWrite_effect {addr width : Nat} {v : Word} {s t : State} {reply : Option Word}
    (h : hostMemWrite addr width v s = .done t reply) : HostEffect s t := by
  unfold hostMemWrite at h
  split at h <;> cases h
  exact .register addr v (accessOk_inBank ‹_›)

theorem hostSmRead_effect {n : Nat} {r : SmReg} {s t : State} {reply : Option Word}
    (h : hostSmRead n r s = .done t reply) : HostEffect s t := by
  obtain ⟨lane, h⟩ := withLane_done h
  exact hostMemRead_effect h

theorem hostSmWrite_effect {n : Nat} {r : SmReg} {v : Word} {s t : State} {reply : Option Word}
    (h : hostSmWrite n r v s = .done t reply) : HostEffect s t := by
  obtain ⟨lane, h⟩ := withLane_done h
  exact hostMemWrite_effect h

theorem hostFieldRead_effect {n : Nat} {f : Config.FieldName} {s t : State} {reply : Option Word}
    (h : hostFieldRead n f s = .done t reply) : HostEffect s t := by
  obtain ⟨lane, h⟩ := withLane_done h
  cases h
  exact .read

theorem hostFieldWrite_effect {n v : Nat} {f : Config.FieldName} {s t : State} {reply : Option Word}
    (h : hostFieldWrite n f v s = .done t reply) : HostEffect s t := by
  obtain ⟨lane, h⟩ := withLane_done h
  cases h
  exact .register _ _ (regOffset_inBank _).1

theorem hostSetInstructionWord_effect {index : Nat} {value : InstrWord} {s t : State} {reply : Option Word}
    (h : hostSetInstructionWord index value s = .done t reply) : HostEffect s t := by
  unfold hostSetInstructionWord at h
  split at h <;> cases h
  exact .register _ _ (by simp only [instrOffset, Config.bankBytes]; omega)

theorem hostTxPush_effect {n : Nat} {v : Word} {s t : State} {reply : Option Word}
    (h : hostTxPush n v s = .done t reply) : HostEffect s t := by
  obtain ⟨lane, h⟩ := withLane_done h
  by_cases room : (getLane s.lanes lane).txf.length < Config.fifoDepth
  · simp only [fifoPush, if_pos room] at h
    cases h
    exact .txPush lane v room
  · simp only [fifoPush, if_neg room] at h
    cases h

theorem hostRxPop_effect {n : Nat} {s t : State} {reply : Option Word}
    (h : hostRxPop n s = .done t reply) : HostEffect s t := by
  obtain ⟨lane, h⟩ := withLane_done h
  cases hq : (getLane s.lanes lane).rxf with
  | nil =>
    simp only [hq, fifoPop] at h
    cases h
  | cons v q =>
    simp only [hq, fifoPop] at h
    cases h
    exact .rxPop lane v q hq

theorem hostOp_effect {op : HostOp} {s t : State} {reply : Option Word} (h : hostOp op s = .done t reply) :
    HostEffect s t := by
  cases op with
  | memRead => exact hostMemRead_effect h
  | memWrite => exact hostMemWrite_effect h
  | smRead => exact hostSmRead_effect h
  | smWrite => exact hostSmWrite_effect h
  | fieldRead => exact hostFieldRead_effect h
  | fieldWrite => exact hostFieldWrite_effect h
  | setInstructionWord => exact hostSetInstructionWord_effect h
  | txPush => exact hostTxPush_effect h
  | rxPop => exact hostRxPop_effect h
  | drivePin => cases h; exact .pins _

/-- What is so of every lane stays so when one lane's record is replaced by one of which it is so. -/
theorem forall_lanes_setLane {P : Fin 4 → Lane → Prop} {l : Lanes} (h : ∀ n, P n (getLane l n)) {m : Fin 4} {r : Lane}
    (hr : P m r) (n : Fin 4) : P n (getLane (setLane l m r) n) := by
  by_cases hn : n = m
  · subst hn
    rwa [getLane_setLane_self]
  · rw [getLane_setLane_other l r hn]
    exact h n

theorem HostEffect.inv {s t : State} (h : HostEffect s t) (hs : s.Inv) : t.Inv := by
  obtain ⟨hfifo, hwf, htables, hlatch⟩ := hs
  cases h with
  | read => exact ⟨hfifo, hwf, htables, hlatch⟩
  | register a v ha => exact ⟨hfifo, bankSetWord_wf v ha hwf, htables, hlatch⟩
  | txPush n v room =>
    have hr : ((getLane s.lanes n).txf ++ [v]).length ≤ Config.fifoDepth := by
      simpa using room
    exact ⟨forall_lanes_setLane (P := fun _ => Lane.fifosBounded) hfifo ⟨hr, (hfifo n).2⟩, hwf, htables, hlatch⟩
  | rxPop n v q hq =>
    have hr : q.length ≤ Config.fifoDepth := by
      have := (hfifo n).2
      rw [hq, List.length_cons] at this
      omega
    exact ⟨forall_lanes_setLane (P := fun _ => Lane.fifosBounded) hfifo ⟨(hfifo n).1, hr⟩, hwf, htables, hlatch⟩
  | pins g => exact ⟨hfifo, hwf, htables, hlatch⟩

/-! ## Runs (R53) -/

/-- What every Step and every host action keeps, every run keeps. -/
theorem afterEvents_induction {P : State → Prop} (hstep : ∀ {s t}, P s → step s = .next t → P t)
    (hhost : ∀ {s t}, P s → HostEffect s t → P t) (es : List Event) {s : State} (hs : P s) : P (afterEvents es s) := by
  induction es generalizing s with
  | nil => exact hs
  | cons e rest ih =>
    refine ih ?_
    cases e with
    | step =>
      cases h : step s with
      | next t => simpa only [afterEvent, h] using hstep hs h
      | fault k => simpa only [afterEvent, h] using hs
      | refused r => simpa only [afterEvent, h] using hs
    | host op =>
      cases h : hostOp op s with
      | done t reply => simpa only [afterEvent, h] using hhost hs (hostOp_effect h)
      | failed k => simpa only [afterEvent, h] using hs
      | refused => simpa only [afterEvent, h] using hs

/-! ## The bit counters (R17) -/

/-- Two lane records have the same bit counters. -/
def Lane.sameCounters (r r' : Lane) : Prop := r'.osrCount = r.osrCount ∧ r'.isrCount = r.isrCount

theorem step_sameCounters {s t : State} (h : step s = .next t) (n : Fin 4) :
    (getLane s.lanes n).sameCounters (getLane t.lanes n) := by
  obtain ⟨-, ⟨-, rfl⟩ | ⟨-, hexec⟩⟩ := step_cases h
  · exact ⟨rfl, rfl⟩
  have hfoot := exec_footprint hexec
  obtain ⟨-, -, hactive, -, -, hother⟩ := hfoot.untouched
  by_cases hn : n = s.activeLane
  · have hlane := mayWriteLane_counters hfoot.lane
    rw [active, active, hactive, ← hn] at hlane
    exact hlane
  · rw [hother n hn]
    exact ⟨rfl, rfl⟩

theorem HostEffect.sameCounters {s t : State} (h : HostEffect s t) (n : Fin 4) :
    (getLane s.lanes n).sameCounters (getLane t.lanes n) := by
  have hsame (m : Fin 4) : (getLane s.lanes m).sameCounters (getLane s.lanes m) := ⟨rfl, rfl⟩
  cases h with
  | read | register | pins => exact hsame n
  | txPush m | rxPop m =>
    refine forall_lanes_setLane (P := fun n r => (getLane s.lanes n).sameCounters r) hsame ?_ n
    exact ⟨rfl, rfl⟩

theorem getLane_atReset (p : Config.Params) (lane n : Fin 4) (pins : Gpio) :
    getLane (State.atReset p lane pins).lanes n = Lane.atReset p := by
  fin_cases n <;> rfl

/-- Every run keeps the bit counters of every lane. -/
theorem afterEvents_sameCounters (es : List Event) (s : State) (n : Fin 4) :
    (getLane s.lanes n).sameCounters (getLane (afterEvents es s).lanes n) :=
  afterEvents_induction (P := fun t => (getLane s.lanes n).sameCounters (getLane t.lanes n))
    (fun ⟨ho, hi⟩ hstep => ⟨(step_sameCounters hstep n).1.trans ho, (step_sameCounters hstep n).2.trans hi⟩)
    (fun ⟨ho, hi⟩ hhost => ⟨(hhost.sameCounters n).1.trans ho, (hhost.sameCounters n).2.trans hi⟩)
    es ⟨rfl, rfl⟩

/-! ## Construction (R180) -/

theorem atReset_inv {p : Config.Params} (hp : p.ok = true) (lane : Fin 4) (pins : Gpio) :
    (State.atReset p lane pins).Inv := by
  have hempty : (Lane.atReset p).fifosBounded := ⟨Nat.zero_le _, Nat.zero_le _⟩
  obtain ⟨hlayout, henums⟩ := Bool.and_eq_true_iff.mp hp
  refine ⟨fun n => ?_, resetBank_wf p.layout, ⟨hlayout, henums⟩, fun k hk => nomatch hk⟩
  rw [getLane_atReset]
  exact hempty

/-! ## The statements -/

/-- Settles O10: the delay stage changes nothing the invariant speaks of, and every instruction stays within its
footprint, which keeps it. -/
theorem stepKeepsInvariant : Obligations.StepKeepsInvariant :=
  fun _ _ => step_inv

/-- Settles O12, by induction on the actions, a Step or a host action at a time. -/
theorem everyRunKeepsInvariant : Obligations.EveryRunKeepsInvariant :=
  fun es _ => afterEvents_induction step_inv (fun hs hhost => hhost.inv hs) es

/-- Settles O15: no instruction's footprint and no host action's effect holds a bit counter. -/
theorem bitCountersKeepResetValue : Obligations.BitCountersKeepResetValue := by
  refine ⟨fun s t => step_sameCounters, fun es p lane n pins => ?_⟩
  have h := afterEvents_sameCounters es (State.atReset p lane pins) n
  rw [getLane_atReset] at h
  exact h

/-- Settles O27, from the footprint of a JMP or a WAIT. -/
theorem jmpAndWaitFrame : Obligations.JmpAndWaitFrame := by
  intro i s t hkind h
  have hfoot := exec_footprint h
  obtain ⟨hpush, hpull, hset⟩ : i.kind ≠ .push ∧ i.kind ≠ .pull ∧ i.kind ≠ .set := by
    rcases hkind with e | e <;> simp [e]
  have hsetX : ∀ ds d, i ≠ .setX ds d := fun _ _ e => hset (e ▸ rfl)
  have hsetY : ∀ ds d, i ≠ .setY ds d := fun _ _ e => hset (e ▸ rfl)
  obtain ⟨hosrCount, hisrCount⟩ := mayWriteLane_counters hfoot.lane
  obtain ⟨hosr, hisr, htxf, hrxf⟩ := mayWriteLane_buffers hfoot.lane hpush hpull
  exact ⟨fun hdec => mayWriteLane_x hfoot.lane hdec hsetX, fun hdec => mayWriteLane_y hfoot.lane hdec hsetY,
    hosr, hosrCount, hisr, hisrCount, htxf, hrxf, mayDrive_eq hfoot.pins hset, hfoot.untouched,
    hfoot.untouched.bankByte_eq, fun hs hexec =>
      hfoot.halted_eq hs (not_mayFault_of_executable hexec hpush fun e => absurd e hset)⟩

/-- Settles O39, from the footprint of a PUSH and of a PULL. -/
theorem pushPullFrame : Obligations.PushPullFrame := by
  intro i s t hkind h
  have hfoot := exec_footprint h
  have hlane := hfoot.lane
  obtain ⟨hosrCount, hisrCount⟩ := mayWriteLane_counters hlane
  cases i with
  | push =>
    have hx := mayWriteLane_x hlane nofun nofun
    have hy := mayWriteLane_y hlane nofun nofun
    obtain ⟨p, v, q, -, hr⟩ := hlane
    exact ⟨hx, hy, hosrCount, hisrCount, fun _ => ⟨by rw [hr], by rw [hr]⟩, nofun, hfoot.pins, hfoot.untouched,
      hfoot.untouched.bankByte_eq, nofun⟩
  | pull =>
    have hx := mayWriteLane_x hlane nofun nofun
    have hy := mayWriteLane_y hlane nofun nofun
    obtain ⟨p, v, q, -, hr⟩ := hlane
    exact ⟨hx, hy, hosrCount, hisrCount, nofun, fun _ => ⟨by rw [hr], by rw [hr]⟩, hfoot.pins, hfoot.untouched,
      hfoot.untouched.bankByte_eq, fun hs _ => hfoot.halted_eq hs fun _ => id⟩
  | _ => rcases hkind with e | e <;> cases e

/-- Settles O45, from the footprint of a SET or of an unimplemented kind. -/
theorem setAndUnimplementedFrame : Obligations.SetAndUnimplementedFrame := by
  intro i s t hkind h
  have hfoot := exec_footprint h
  obtain ⟨hpush, hpull, hjmp⟩ : i.kind ≠ .push ∧ i.kind ≠ .pull ∧ i.kind ≠ .jmp := by
    rcases hkind with e | e | e | e | e <;> simp [e]
  have hdecX : ∀ ds a, i ≠ .jmpXDec ds a := fun _ _ e => hjmp (e ▸ rfl)
  have hdecY : ∀ ds a, i ≠ .jmpYDec ds a := fun _ _ e => hjmp (e ▸ rfl)
  obtain ⟨hosrCount, hisrCount⟩ := mayWriteLane_counters hfoot.lane
  obtain ⟨hosr, hisr, htxf, hrxf⟩ := mayWriteLane_buffers hfoot.lane hpush hpull
  exact ⟨mayWriteLane_x hfoot.lane hdecX, mayWriteLane_y hfoot.lane hdecY, hosr, hosrCount, hisr, hisrCount, htxf,
    hrxf, mayDrive_value hfoot.pins, mayDrive_oe hfoot.pins, hfoot.untouched, hfoot.untouched.bankByte_eq,
    fun hs hexec hcount => hfoot.halted_eq hs (not_mayFault_of_executable hexec hpush fun _ => hcount)⟩

/-- Settles O11: the default parameters are admitted ones, and admitted tables are all the invariant asks of them. -/
theorem resetMeetsInvariant : Obligations.ResetMeetsInvariant :=
  ⟨atReset_inv (by decide) 0 _, fun _ lane pins hp => atReset_inv hp lane pins⟩

/-- Settles O20: `pc` is five bits wide, so its increment is modulo 32. -/
theorem incPcWrapsFromLastIndex : Obligations.IncPcWrapsFromLastIndex := by
  intro s
  have hpc : (active (incPc s)).pc = (active s).pc + 1 := by rw [active_incPc]
  refine ⟨by rw [hpc, BitVec.toNat_add]; rfl, ?_⟩
  rw [hpc]
  rfl

end Sys2Proof.Machine

/-! SUPPORT. The register bank, the pin array and the FIFO ports as the host and a Step meet them, and the statements
about memory settled from that. -/

namespace Sys2Proof.Machine

/-! ## A Step and the bank it runs on (R46) -/

/-- The block with another register bank in place of its own. -/
def State.withBank (s : State) (m : List Host.Cell) : State := { s with mem := m }

/-- The answer with another register bank in its next state. -/
def Answer.withBank (m : List Host.Cell) : Answer → Answer
  | .next t => .next (t.withBank m)
  | .fault k => .fault k
  | .refused r => .refused r

/-- The bank `m` holds what the instructions of `s` read from it: seven fields of the active lane. -/
def State.bankAgrees (s : State) (m : List Host.Cell) : Prop :=
  ∀ f ∈ [Config.FieldName.jmpPin, .pushThresh, .pullThresh, .sidesetCount, .setCount, .setBase, .inBase],
    configured (s.withBank m) f = configured s f

theorem chargeDelay_withBank {s : State} {m : List Host.Cell} (h : s.bankAgrees m) (ds : Five) :
    chargeDelay ds (s.withBank m) = (chargeDelay ds s).withBank m := by
  have hcount : sidesetCount (s.withBank m) = sidesetCount s := h .sidesetCount (by decide)
  unfold chargeDelay
  dsimp only
  rw [hcount]
  split
  · rfl
  · split <;> rfl

theorem bankAgrees_chargeDelay {s : State} {m : List Host.Cell} (h : s.bankAgrees m) (ds : Five) :
    (chargeDelay ds s).bankAgrees m := by
  intro f hf
  rw [← chargeDelay_withBank h, configured_chargeDelay, configured_chargeDelay]
  exact h f hf

/-- The delay charge and what follows it do the same on the other bank if what follows does after the charge. -/
theorem withDelay_withBank {s : State} {m : List Host.Cell} (h : s.bankAgrees m) {ds : Five}
    {rest rest' : State → Answer}
    (hrest : ∀ u : State, u.bankAgrees m → rest' (u.withBank m) = (rest u).withBank m) :
    withDelay ds (s.withBank m) rest' = (withDelay ds s rest).withBank m := by
  have hcount : sidesetCount (s.withBank m) = sidesetCount s := h .sidesetCount (by decide)
  unfold withDelay
  rw [hcount, chargeDelay_withBank h]
  split
  · exact hrest _ (bankAgrees_chargeDelay h ds)
  · rfl

theorem setPc_withBank (a : Nat) (s : State) (m : List Host.Cell) :
    setPc a (s.withBank m) = (setPc a s).withBank m := by
  unfold setPc
  split <;> rfl

/-- A JMP does the same on the other bank if its condition answers the same. -/
theorem jump_withBank {s : State} {m : List Host.Cell} (h : s.bankAgrees m) {cond : State → Bool × State}
    (hcond : ∀ u : State, u.bankAgrees m → cond (u.withBank m) = ((cond u).1, (cond u).2.withBank m))
    (ds a : Five) : jump cond ds a (s.withBank m) = (jump cond ds a s).withBank m := by
  refine withDelay_withBank h fun u hu => ?_
  rw [hcond u hu]
  dsimp only
  split
  · exact setPc_withBank a.toNat _ m
  · rfl

/-- A WAIT does the same on the other bank if its poll answers the same. -/
theorem waitFor_withBank {s : State} {m : List Host.Cell} (h : s.bankAgrees m) {poll : State → Except Fault Bool}
    (hpoll : ∀ u : State, u.bankAgrees m → poll (u.withBank m) = poll u) (ds : Five) (polarity : Bool) :
    waitFor poll ds polarity (s.withBank m) = (waitFor poll ds polarity s).withBank m := by
  refine withDelay_withBank h fun u hu => ?_
  rw [hpoll u hu]
  cases poll u with
  | error k => rfl
  | ok b => dsimp only; split <;> rfl

theorem pushTransfer_withBank (s : State) (m : List Host.Cell) :
    pushTransfer (s.withBank m) = (pushTransfer s).withBank m := by
  rcases Nat.lt_or_ge (active s).rxf.length 4 with room | full
  · rw [pushTransfer_room room, pushTransfer_room (s := s.withBank m) room]
    rfl
  · rw [pushTransfer_full full, pushTransfer_full (s := s.withBank m) full]
    rfl

theorem pullTransfer_withBank (s : State) (m : List Host.Cell) :
    pullTransfer (s.withBank m) = (pullTransfer s).withBank m := by
  cases hq : (active s).txf with
  | nil =>
    rw [pullTransfer_nil hq, pullTransfer_nil (s := s.withBank m) hq]
    rfl
  | cons v q =>
    rw [pullTransfer_cons hq, pullTransfer_cons (s := s.withBank m) hq]
    rfl

theorem execPush_withBank {s : State} {m : List Host.Cell} (h : s.bankAgrees m) (ds : Five) (ifFull block : Bool) :
    execPush ds ifFull block (s.withBank m) = (execPush ds ifFull block s).withBank m := by
  refine withDelay_withBank h fun u hu => ?_
  have hthreshold : pushThreshold (u.withBank m) = pushThreshold u := hu .pushThresh (by decide)
  have hactive : active (u.withBank m) = active u := rfl
  have hfull : rxFull (u.withBank m) = rxFull u := rfl
  rw [hthreshold, hactive, hfull]
  split
  · rfl
  · split
    · rfl
    · exact pushTransfer_withBank u m

theorem execPull_withBank {s : State} {m : List Host.Cell} (h : s.bankAgrees m) (ds : Five) (ifEmpty block : Bool) :
    execPull ds ifEmpty block (s.withBank m) = (execPull ds ifEmpty block s).withBank m := by
  refine withDelay_withBank h fun u hu => ?_
  have hthreshold : pullThreshold (u.withBank m) = pullThreshold u := hu .pullThresh (by decide)
  have hactive : active (u.withBank m) = active u := rfl
  have hempty : txEmpty (u.withBank m) = txEmpty u := rfl
  rw [hthreshold, hactive, hempty]
  split
  · rfl
  · split
    · rfl
    · exact pullTransfer_withBank u m

theorem setScratch_withBank {s : State} {m : List Host.Cell} (h : s.bankAgrees m) (write : Lane → Lane) (ds : Five) :
    setScratch write ds (s.withBank m) = (setScratch write ds s).withBank m :=
  withDelay_withBank h fun _ _ => rfl

theorem setPlane_withBank {s : State} {m : List Host.Cell} (h : s.bankAgrees m)
    (write : Nat → Nat → Word → Gpio → Except Fault Gpio) (ds data : Five) :
    setPlane write ds data (s.withBank m) = (setPlane write ds data s).withBank m := by
  refine withDelay_withBank h fun u hu => ?_
  have hbase : setBaseIndex (u.withBank m) = setBaseIndex u := hu .setBase (by decide)
  have hcount : setPinCount (u.withBank m) = setPinCount u := hu .setCount (by decide)
  have hgpio : (u.withBank m).gpio = u.gpio := rfl
  rw [hbase, hcount, hgpio]
  cases write (setBaseIndex u) (setPinCount u) (immediate data) u.gpio <;> rfl

/-- Every instruction does the same on another bank that agrees on the seven fields. -/
theorem exec_withBank {s : State} {m : List Host.Cell} (h : s.bankAgrees m) (i : Instr) :
    exec i (s.withBank m) = Answer.withBank m (exec i s) := by
  cases i with
  | jmpAlways | jmpNotX | jmpXDec | jmpNotY | jmpYDec | jmpXNeY => exact jump_withBank h (fun _ _ => rfl) _ _
  | jmpPin =>
    refine jump_withBank h (fun u hu => ?_) _ _
    have hpin : jmpPinIndex (u.withBank m) = jmpPinIndex u := hu .jmpPin (by decide)
    rw [condPin, hpin]
    rfl
  | jmpNotOsre =>
    refine jump_withBank h (fun u hu => ?_) _ _
    have hthreshold : pullThreshold (u.withBank m) = pullThreshold u := hu .pullThresh (by decide)
    rw [condNotOsre, hthreshold]
    rfl
  | waitGpio ds polarity index =>
    exact waitFor_withBank (poll := fun u => .ok (gpioRead index.toNat u.gpio)) h (fun _ _ => rfl) ds polarity
  | waitPin ds polarity index =>
    refine waitFor_withBank (poll := fun u => .ok (gpioRead (waitPinIndex u index) u.gpio)) h (fun u hu => ?_)
      ds polarity
    have hbase : configured (u.withBank m) .inBase = configured u .inBase := hu .inBase (by decide)
    rw [waitPinIndex, hbase]
    rfl
  | waitIrq ds polarity index => exact waitFor_withBank h (fun _ _ => rfl) ds polarity
  | waitRsvd ds polarity index =>
    exact waitFor_withBank (poll := fun _ => .error .unsupportedInstruction) h (fun _ _ => rfl) ds polarity
  | inBits | outBits | mov | irq => exact withDelay_withBank h fun _ _ => rfl
  | push => exact execPush_withBank h _ _ _
  | pull => exact execPull_withBank h _ _ _
  | setX ds data => exact setScratch_withBank h (fun r => { r with x := immediate data }) ds
  | setY ds data => exact setScratch_withBank h (fun r => { r with y := immediate data }) ds
  | setPins | setPindirs => exact setPlane_withBank h _ _ _
  | setRsvd3 | setRsvd5 | setRsvd6 | setRsvd7 => exact withDelay_withBank h fun _ _ => rfl

/-- A block whose next Step fetches executes what it fetches (R92, R93). -/
theorem step_of_atFetch {s : State} (h : s.atFetch) : step s = exec s.fetched s := by
  obtain ⟨hhalted, hdelay⟩ := h
  simp only [step, hhalted, hdelay, fetch_eq, ne_eq, not_true_eq_false, if_false]
  rfl

theorem step_of_pendingDelay {s : State} (hhalted : s.halted = none) (hdelay : s.pendingDelay ≠ 0) :
    step s = .next (delayStage s) := by
  simp only [step, hhalted, if_pos hdelay]

theorem step_sameUntouched {s t : State} (h : step s = .next t) : s.sameUntouched t := by
  obtain ⟨-, ⟨-, rfl⟩ | ⟨-, hexec⟩⟩ := step_cases h
  · exact sameUntouched_delayStage s
  · exact (exec_footprint hexec).untouched

theorem atFetch_withBank {s : State} (h : s.atFetch) (m : List Host.Cell) : (s.withBank m).atFetch := h

/-- A Step does the same on another bank with the same word at `pc` that agrees on the seven fields. -/
theorem step_withBank {s t : State} {m : List Host.Cell} (h : step s = .next t) (hfields : s.bankAgrees m)
    (hword : (s.withBank m).fetched = s.fetched) : step (s.withBank m) = .next (t.withBank m) := by
  obtain ⟨hhalted, ⟨hdelay, rfl⟩ | ⟨hdelay, hexec⟩⟩ := step_cases h
  · exact step_of_pendingDelay (s := s.withBank m) hhalted hdelay
  · rw [step_of_atFetch (atFetch_withBank ⟨hhalted, hdelay⟩ m), hword, exec_withBank hfields, hexec]
    rfl

/-! ## The register bank under the host's writes (R44, R48, R49) -/

theorem accessOk_regOffset (r : Reg) : accessOk (regOffset r) 4 = true := by
  obtain ⟨hin, haligned⟩ := regOffset_inBank r
  simp only [accessOk, Config.lastOffset, Config.bankBytes] at hin ⊢
  simp only [beq_self_eq_true, haligned, Bool.true_and, decide_eq_true_eq]
  omega

theorem hostMemRead_reg (r : Reg) (s : State) :
    hostMemRead (regOffset r) 4 s = .done s (some (bankWord s.mem (regOffset r))) :=
  if_pos (accessOk_regOffset r)

theorem hostMemWrite_reg (r : Reg) (v : Word) (s : State) :
    hostMemWrite (regOffset r) 4 v s = .done { s with mem := bankSetWord s.mem (regOffset r) v } none :=
  if_pos (accessOk_regOffset r)

theorem hostSetInstructionWord_inRange {index : Nat} (h : index ≤ 31) (w : InstrWord) (s : State) :
    hostSetInstructionWord index w s =
      .done { s with mem := bankSetWord s.mem (instrOffset index) (w.setWidth 32) } none :=
  if_neg (Nat.not_lt.mpr h)

theorem hostSetInstructionWord_outOfRange {index : Nat} (h : 31 < index) (w : InstrWord) (s : State) :
    hostSetInstructionWord index w s = .failed (.outOfRange index) :=
  if_pos h

theorem instrOffset_inBank {index : Nat} (h : index ≤ 31) : instrOffset index + 3 < Config.bankBytes := by
  simp only [instrOffset, Config.bankBytes]
  omega

/-- An instruction word the host stores is decoded as its sixteen bits (R49, R70). -/
theorem decode_zeroExtended (m : Config.EnumMap) (w : InstrWord) : decode m (w.setWidth 32) = decodeInstr m w := by
  rw [decode, BitVec.setWidth_setWidth_of_le _ (by decide), BitVec.setWidth_eq]

theorem fetched_withBank {s : State} {m : List Host.Cell} {w : InstrWord}
    (h : bankWord m (instrOffset (active s).pc.toNat) = w.setWidth 32) :
    (s.withBank m).fetched = decodeInstr s.enums w :=
  (congrArg (decode s.enums) h).trans (decode_zeroExtended s.enums w)

theorem afterEvent_of_failed {op : HostOp} {s : State} {k : Fault} (h : hostOp op s = .failed k) :
    afterEvent (.host op) s = s := by
  simp only [afterEvent, h]

theorem afterEvent_of_done {op : HostOp} {s t : State} {reply : Option Word} (h : hostOp op s = .done t reply) :
    afterEvent (.host op) s = t := by
  simp only [afterEvent, h]

/-! ## Fields (R47, R48) -/

theorem getField_setField_self {p : Config.FieldPos} (hp : p.offset + p.width ≤ 32) (v : Word) (n : Nat) :
    getField (setField v p n) p = n % 2 ^ p.width := by
  apply Nat.eq_of_testBit_eq
  intro i
  rw [getField_testBit, Nat.testBit_mod_two_pow]
  by_cases hi : i < p.width
  · rw [setField_getLsbD v p n (p.offset + i) (by omega), if_pos (by omega), Nat.add_sub_cancel_left]
  · simp [hi]

/-- Whatever its width, a field is no more than the word that holds it. -/
theorem getField_lt_word (v : Word) (p : Config.FieldPos) : getField v p < 2 ^ 32 :=
  calc getField v p ≤ v.toNat >>> p.offset := Nat.mod_le _ _
    _ ≤ v.toNat := Nat.shiftRight_le _ _
    _ < 2 ^ 32 := v.isLt

theorem setField_getLsbD_outside {p : Config.FieldPos} (v : Word) (n : Nat) {i : Nat} (hi : i < 32)
    (h : i < p.offset ∨ p.offset + p.width ≤ i) : (setField v p n).getLsbD i = v.getLsbD i := by
  rw [setField_getLsbD v p n i hi, if_neg (by omega)]

/-- A field that shares no bit with the one that is set is kept. -/
theorem getField_setField_apart {p q : Config.FieldPos} (hq : q.offset + q.width ≤ 32)
    (h : q.offset + q.width ≤ p.offset ∨ p.offset + p.width ≤ q.offset) (v : Word) (n : Nat) :
    getField (setField v p n) q = getField v q := by
  apply Nat.eq_of_testBit_eq
  intro i
  rw [getField_testBit, getField_testBit]
  by_cases hi : i < q.width
  · rw [setField_getLsbD_outside v n (by omega) (by omega)]
  · simp [hi]

/-- In a bank where one field of an admitted layout was set and every other register kept, every other field reads as
before: it stands in another register, or in the same one and shares no bit with the field that was set. -/
theorem laneField_withBank_other {s : State} {m : List Host.Cell} {lane : Fin 4} {f : Config.FieldName} {n : Nat}
    (hlayout : Config.layoutOk s.layout = true)
    (hself : bankWord m (regOffset (fieldReg lane f)) =
      setField (bankWord s.mem (regOffset (fieldReg lane f))) (fieldPos s.layout f) n)
    (hkept : ∀ r, r ≠ fieldReg lane f → bankWord m (regOffset r) = bankWord s.mem (regOffset r))
    {other : Fin 4} {g : Config.FieldName} (hother : fieldReg other g ≠ fieldReg lane f ∨ g ≠ f) :
    laneField (s.withBank m) other g = laneField s other g := by
  unfold laneField
  by_cases hreg : fieldReg other g = fieldReg lane f
  · have hg : g ≠ f := hother.resolve_left (not_not_intro hreg)
    rw [hreg]
    exact (congrArg (getField · (fieldPos s.layout g)) hself).trans
      (getField_setField_apart (layoutOk_inWord hlayout g).2 (layoutOk_apart hlayout hreg hg) _ n)
  · exact congrArg (getField · (fieldPos s.layout g)) (hkept _ hreg)

/-! ## Lane selectors (R66) -/

theorem withLane_val (lane : Fin 4) (act : Fin 4 → HostResult) : withLane lane.val act = act lane :=
  dif_pos lane.isLt

theorem withLane_outOfRange {n : Nat} (h : 4 ≤ n) (act : Fin 4 → HostResult) :
    withLane n act = .failed (.invalidLaneIndex n) :=
  dif_neg (Nat.not_lt.mpr h)

theorem hostSmRead_lane (lane : Fin 4) (r : SmReg) (s : State) :
    hostSmRead lane.val r s = .done s (some (bankWord s.mem (regOffset (.sm lane r)))) := by
  rw [hostSmRead, withLane_val, hostMemRead_reg]

theorem hostSmWrite_lane (lane : Fin 4) (r : SmReg) (v : Word) (s : State) :
    hostSmWrite lane.val r v s = .done { s with mem := bankSetWord s.mem (regOffset (.sm lane r)) v } none := by
  rw [hostSmWrite, withLane_val, hostMemWrite_reg]

theorem hostFieldRead_lane (lane : Fin 4) (f : Config.FieldName) (s : State) :
    hostFieldRead lane.val f s = .done s (some (BitVec.ofNat 32 (laneField s lane f))) := by
  rw [hostFieldRead, withLane_val]

theorem hostFieldWrite_lane (lane : Fin 4) (f : Config.FieldName) (n : Nat) (s : State) :
    hostFieldWrite lane.val f n s =
      .done { s with
        mem := bankSetWord s.mem (regOffset (fieldReg lane f))
          (setField (bankWord s.mem (regOffset (fieldReg lane f))) (fieldPos s.layout f) n) } none := by
  rw [hostFieldWrite, withLane_val]

/-! ## FIFO ports (R63, R64) -/

theorem hostTxPush_room {s : State} {lane : Fin 4} (h : (getLane s.lanes lane).txf.length < Config.fifoDepth)
    (v : Word) : hostTxPush lane.val v s = .done { s with
      lanes := setLane s.lanes lane
        { getLane s.lanes lane with txf := (getLane s.lanes lane).txf ++ [v] } } none := by
  rw [hostTxPush, withLane_val]
  simp only [fifoPush, if_pos h]

theorem hostTxPush_full {s : State} {lane : Fin 4} (h : Config.fifoDepth ≤ (getLane s.lanes lane).txf.length)
    (v : Word) : hostTxPush lane.val v s = .failed .fifoFull := by
  rw [hostTxPush, withLane_val]
  simp only [fifoPush, if_neg (Nat.not_lt.mpr h)]

theorem hostRxPop_cons {s : State} {lane : Fin 4} {v : Word} {q : List Word}
    (h : (getLane s.lanes lane).rxf = v :: q) : hostRxPop lane.val s =
      .done { s with lanes := setLane s.lanes lane { getLane s.lanes lane with rxf := q } } (some v) := by
  rw [hostRxPop, withLane_val]
  simp only [h, fifoPop]

theorem hostRxPop_nil {s : State} {lane : Fin 4} (h : (getLane s.lanes lane).rxf = []) :
    hostRxPop lane.val s = .failed .fifoEmpty := by
  rw [hostRxPop, withLane_val]
  simp only [h, fifoPop]

/-- Words the host pushes while there is room queue behind those that stand there, in their order. -/
theorem txf_afterEvents_txPush {lane : Fin 4} (ws : List Word) {s : State}
    (h : (getLane s.lanes lane).txf.length + ws.length ≤ Config.fifoDepth) :
    (getLane (afterEvents (ws.map fun w => .host (.txPush lane.val w)) s).lanes lane).txf =
      (getLane s.lanes lane).txf ++ ws := by
  induction ws generalizing s with
  | nil => exact (List.append_nil _).symm
  | cons w rest ih =>
    rw [List.length_cons] at h
    have hpush : hostOp (.txPush lane.val w) s = _ := hostTxPush_room (by omega) w
    rw [List.map_cons, afterEvents, afterEvent_of_done hpush, ih] <;> rw [getLane_setLane_self]
    · exact List.append_assoc _ [w] rest
    · rw [List.length_append, List.length_singleton]
      omega

/-! ## Ranged pin writes (R56, R57) -/

/-- A pin outside the range keeps its bit. -/
theorem rangeWrite_getLsbD_outside (plane : Word) (base : Nat) (bits : Word) {count p : Nat} (hp : p < 32)
    (h : ∀ i, i < count → p ≠ (base + i) % 32) :
    (rangeWrite plane base bits count).getLsbD p = plane.getLsbD p := by
  induction count with
  | zero => rfl
  | succ n ih =>
    rw [rangeWrite, writeBit_getLsbD _ _ (Nat.mod_lt _ (by decide)) hp, if_neg (h n n.lt_succ_self)]
    exact ih fun i hi => h i (by omega)

/-- A range of up to 32 pins meets no pin twice, so each takes its own bit. -/
theorem rangeWrite_getLsbD_inside (plane : Word) (base : Nat) (bits : Word) {count i : Nat} (hcount : count ≤ 32)
    (hi : i < count) : (rangeWrite plane base bits count).getLsbD ((base + i) % 32) = bits.getLsbD i := by
  induction count with
  | zero => omega
  | succ n ih =>
    rw [rangeWrite, writeBit_getLsbD _ _ (Nat.mod_lt _ (by decide)) (Nat.mod_lt _ (by decide))]
    by_cases hin : i = n
    · rw [hin, if_pos rfl]
    · rw [if_neg (by omega)]
      exact ih (by omega) (by omega)

theorem gpioWriteRange_inRange {count : Nat} (h : count ≤ 32) (base : Nat) (bits : Word) (g : Gpio) :
    gpioWriteRange base count bits g = .ok { g with value := rangeWrite g.value base bits count } :=
  if_neg (Nat.not_lt.mpr h)

theorem gpioWriteEnableRange_inRange {count : Nat} (h : count ≤ 32) (base : Nat) (bits : Word) (g : Gpio) :
    gpioWriteEnableRange base count bits g = .ok { g with oe := rangeWrite g.oe base bits count } :=
  if_neg (Nat.not_lt.mpr h)

/-! ## Boards (R65) -/

theorem boardEvent_of_some {b : Board} {i : Nat} {s : State} (h : boardBlock b i = some s) (e : Event) :
    boardEvent i e b = { gpio := (afterEvent e s).gpio, blocks := b.blocks.set i (afterEvent e s) } := by
  simp only [boardEvent, h]

theorem lt_of_boardBlock {b : Board} {i : Nat} {s : State} (h : boardBlock b i = some s) : i < b.blocks.length := by
  obtain ⟨u, hu, -⟩ := Option.map_eq_some_iff.mp h
  exact (List.getElem?_eq_some_iff.mp hu).1

/-! ## The statements -/

/-- Settles O13: no instruction's footprint holds the bank, and every instruction commutes with the exchange of the
bank for one that agrees on what it reads. -/
theorem stepOnlyReadsItsRegisters : Obligations.StepOnlyReadsItsRegisters :=
  fun _ _ h => ⟨(step_sameUntouched h).bankByte_eq, fun _ hword hfields =>
    step_withBank h hfields (congrArg (decode _) hword)⟩

/-- Settles O5: the word that stands at `pc` after the load is the loaded one, whose upper half is zero. -/
theorem loadedWordRunsNext : Obligations.LoadedWordRunsNext := by
  intro s w hfetch hwf
  have hpc : (active s).pc.toNat ≤ 31 := by have := (active s).pc.isLt; omega
  have hword := bankWord_bankSetWord_self (w.setWidth 32) (instrOffset_inBank hpc) hwf
  refine ⟨s.withBank _, hostSetInstructionWord_inRange hpc w s, ?_⟩
  rw [step_of_atFetch (atFetch_withBank hfetch _), fetched_withBank hword]

/-- Settles O46, plane by plane: a range of up to 32 pins meets no pin twice. -/
theorem rangedWritePlacesBits : Obligations.RangedWritePlacesBits :=
  fun base _ bits g hcount => ⟨_, _, gpioWriteRange_inRange hcount base bits g,
    gpioWriteEnableRange_inRange hcount base bits g, rfl, rfl,
    fun _ hi => ⟨rangeWrite_getLsbD_inside g.value base bits hcount hi,
      rangeWrite_getLsbD_inside g.oe base bits hcount hi⟩,
    fun _ hp h => ⟨rangeWrite_getLsbD_outside g.value base bits hp h,
      rangeWrite_getLsbD_outside g.oe base bits hp h⟩⟩

/-- Settles O49: the 81 registers are aligned words of the bank and share no byte. -/
theorem registerWriteReadsBack : Obligations.RegisterWriteReadsBack := by
  intro s r v hwf
  refine ⟨_, hostMemWrite_reg r v s, ?_, fun r' hr => ?_⟩
  · refine (hostMemRead_reg r _).trans ?_
    rw [bankWord_bankSetWord_self v (regOffset_inBank r).1 hwf]
  · exact bankWord_bankSetWord_other s.mem v (regOffset_apart hr)

/-- Settles O51: of the field's own register only the field changes, and another field of that register shares no bit
with it. -/
theorem fieldWriteKeepsOtherFields : Obligations.FieldWriteKeepsOtherFields := by
  intro s lane f n hwf hlayout p a
  have hself := bankWord_bankSetWord_self (setField (bankWord s.mem a) p n) (regOffset_inBank (fieldReg lane f)).1 hwf
  have hkept : ∀ r, r ≠ fieldReg lane f → bankWord (bankSetWord s.mem a (setField (bankWord s.mem a) p n))
      (regOffset r) = bankWord s.mem (regOffset r) :=
    fun _ hr => bankWord_bankSetWord_other s.mem _ (regOffset_apart hr)
  refine ⟨_, hostFieldWrite_lane lane f n s, hself, ?_, fun i hi hout => ?_, hkept,
    fun _ _ => laneField_withBank_other hlayout hself hkept⟩
  · exact (congrArg (getField · p) hself).trans (getField_setField_self (layoutOk_inWord hlayout f).2 _ n)
  · rw [hself]
    exact setField_getLsbD_outside _ n hi hout

/-- Settles O52: the word goes to a register of the instruction memory, which shares no byte with another register. -/
theorem programLoadStoresOneWord : Obligations.ProgramLoadStoresOneWord := by
  intro s index value hwf
  refine ⟨fun hindex => ⟨_, hostSetInstructionWord_inRange hindex value s, ?_, fun r hr => ?_⟩,
    fun hindex => ?_⟩
  · exact bankWord_bankSetWord_self _ (instrOffset_inBank hindex) hwf
  · have hne : r ≠ .instrMem ⟨index, by omega⟩ := fun e => hr (e ▸ rfl)
    exact bankWord_bankSetWord_other s.mem _ (regOffset_apart hne)
  · have hfail : hostOp (.setInstructionWord index value) s = _ := hostSetInstructionWord_outOfRange hindex value s
    exact ⟨hfail, afterEvent_of_failed hfail⟩

/-- Settles O55; the order of several words is by induction on the words pushed. -/
theorem hostFifoPortsKeepOrder : Obligations.HostFifoPortsKeepOrder := by
  refine fun s lane => ⟨fun v room => hostTxPush_room room v, fun ws hws hempty => ?_,
    fun w full => hostTxPush_full full w, fun v q => hostRxPop_cons, hostRxPop_nil⟩
  have hroom : (getLane s.lanes lane).txf.length + ws.length ≤ Config.fifoDepth := by
    rw [hempty, List.length_nil, Nat.zero_add]
    exact hws
  rw [txf_afterEvents_txPush ws hroom, hempty, List.nil_append]

/-- Settles O57: the board's new list differs from the old one at the acting block only. -/
theorem blocksShareOnlyThePinArray : Obligations.BlocksShareOnlyThePinArray := by
  intro b i e s h
  rw [boardEvent_of_some h e]
  refine ⟨rfl, ?_, fun j hj => ?_⟩
  · rw [boardBlock, List.getElem?_set_self (lt_of_boardBlock h)]
    rfl
  · rw [boardBlock, boardBlock, List.getElem?_set_ne hj.symm, Option.map_map]
    rfl

/-- Settles O53: a selector below 4 is its lane, and the rest are the register and the field operations. -/
theorem laneSelectorsReachTheirLane : Obligations.LaneSelectorsReachTheirLane := by
  intro s lane r v f p pins a
  refine ⟨hostSmRead_lane lane r s, fun hwf => ?_, ⟨_, hostFieldRead_lane lane f s, ?_⟩, fun hp => ?_⟩
  · exact ⟨_, hostSmWrite_lane lane r v s,
      bankWord_bankSetWord_self v (regOffset_inBank (.sm lane r)).1 hwf,
      fun r' hr => bankWord_bankSetWord_other s.mem v (regOffset_apart hr)⟩
  · rw [laneField, BitVec.toNat_ofNat, Nat.mod_eq_of_lt (getField_lt_word _ _), getField,
      Nat.shiftRight_eq_div_pow]
  · rw [construct, withLane_val, if_pos hp]

/-- Settles O54: each of these calls begins with the check of its lane selector. -/
theorem badLaneSelectorFails : Obligations.BadLaneSelectorFails := by
  intro s n v r f w p pins hn
  refine ⟨withLane_outOfRange hn _, fun op hop => ?_⟩
  have hfail : hostOp op s = .failed (.invalidLaneIndex n) := by
    simp only [List.mem_cons, List.not_mem_nil, or_false] at hop
    rcases hop with rfl | rfl | rfl | rfl | rfl | rfl <;>
      simp only [hostOp, hostSmRead, hostSmWrite, hostFieldRead, hostFieldWrite, hostTxPush, hostRxPop,
        withLane_outOfRange hn]
  exact ⟨hfail, afterEvent_of_failed hfail⟩

end Sys2Proof.Machine

/-! SUPPORT. The parts an instruction word is packed from, what the decoder reads from each row of the opcode table,
and the two round trips settled from that; then the faults of the encodings R85 lists and of those it does not. -/

namespace Sys2Proof

open Laws.TableRow (packWord_ds)

/-! ## The parts of a word (R71) -/

@[simp] theorem packWord_opcode (opcode : BitVec 3) (ds : Five) (low : BitVec 8) :
    (packWord opcode ds low).extractLsb' 13 3 = opcode := by
  rw [packWord, BitVec.extractLsb'_append_eq_of_le (by decide)]
  exact BitVec.extractLsb'_append_eq_left

theorem packWord_low {start len : Nat} (h : start + len ≤ 8) (opcode : BitVec 3) (ds : Five) (low : BitVec 8) :
    (packWord opcode ds low).extractLsb' start len = low.extractLsb' start len :=
  BitVec.extractLsb'_append_eq_of_add_le h

theorem packWord_getLsbD {i : Nat} (h : i < 8) (opcode : BitVec 3) (ds : Five) (low : BitVec 8) :
    (packWord opcode ds low).getLsbD i = low.getLsbD i := by
  rw [packWord, BitVec.getLsbD_append, if_pos h]

/-- Every word is packed from its parts. -/
theorem exists_packWord (w : InstrWord) : ∃ opcode ds low, packWord opcode ds low = w := by
  have hhigh : w.extractLsb' 13 3 ++ w.extractLsb' 8 5 = w.extractLsb' 8 8 :=
    BitVec.extractLsb'_append_extractLsb'_eq_extractLsb' rfl
  exact ⟨_, _, _, (congrArg (· ++ w.extractLsb' 0 8) hhigh).trans BitVec.extractLsb'_append_extractLsb'⟩

theorem packWord_and (opcode opcode' : BitVec 3) (ds ds' : Five) (low low' : BitVec 8) :
    packWord opcode ds low &&& packWord opcode' ds' low' =
      packWord (opcode &&& opcode') (ds &&& ds') (low &&& low') :=
  BitVec.and_append.trans (congrArg (· ++ (low &&& low')) BitVec.and_append)

/-! ## The parts of a low byte (R73 to R80) -/

@[simp] theorem lowByte_high (high : BitVec 3) (low : Five) : (lowByte high low).extractLsb' 5 3 = high :=
  BitVec.extractLsb'_append_eq_left

@[simp] theorem lowByte_low (high : BitVec 3) (low : Five) : (lowByte high low).extractLsb' 0 5 = low :=
  BitVec.extractLsb'_append_eq_right

theorem lowByte_parts (b : BitVec 8) : lowByte (b.extractLsb' 5 3) (b.extractLsb' 0 5) = b :=
  BitVec.extractLsb'_append_extractLsb'

@[simp] theorem waitByte_polarity (polarity : Bool) (source : BitVec 2) (index : Five) :
    (waitByte polarity source index).getLsbD 7 = polarity := by
  revert polarity source index; decide

@[simp] theorem waitByte_source (polarity : Bool) (source : BitVec 2) (index : Five) :
    (waitByte polarity source index).extractLsb' 5 2 = source := by
  rw [waitByte, BitVec.extractLsb'_append_eq_of_le (by decide)]
  exact BitVec.extractLsb'_append_eq_right

@[simp] theorem waitByte_index (polarity : Bool) (source : BitVec 2) (index : Five) :
    (waitByte polarity source index).extractLsb' 0 5 = index :=
  BitVec.extractLsb'_append_eq_right

theorem waitByte_parts (b : BitVec 8) :
    waitByte (b.getLsbD 7) (b.extractLsb' 5 2) (b.extractLsb' 0 5) = b := by
  revert b; decide

@[simp] theorem flagByte_bit7 (b7 b6 b5 : Bool) (low : Five) : (flagByte b7 b6 b5 low).getLsbD 7 = b7 := by
  revert b7 b6 b5 low; decide

@[simp] theorem flagByte_bit6 (b7 b6 b5 : Bool) (low : Five) : (flagByte b7 b6 b5 low).getLsbD 6 = b6 := by
  revert b7 b6 b5 low; decide

@[simp] theorem flagByte_bit5 (b7 b6 b5 : Bool) (low : Five) : (flagByte b7 b6 b5 low).getLsbD 5 = b5 := by
  revert b7 b6 b5 low; decide

@[simp] theorem flagByte_low (b7 b6 b5 : Bool) (low : Five) : (flagByte b7 b6 b5 low).extractLsb' 0 5 = low :=
  BitVec.extractLsb'_append_eq_right

/-- PUSH and PULL ignore the low five bits (R86). -/
theorem flagByte_parts_highOnly (b : BitVec 8) :
    flagByte (b.getLsbD 7) (b.getLsbD 6) (b.getLsbD 5) 0 = b &&& 0xE0 := by
  revert b; decide

/-- IRQ ignores bit 7 (R86). -/
theorem flagByte_parts_noBit7 (b : BitVec 8) :
    flagByte false (b.getLsbD 6) (b.getLsbD 5) (b.extractLsb' 0 5) = b &&& 0x7F := by
  revert b; decide

theorem movByte_fields (destination : BitVec 3) (op : BitVec 2) (source : BitVec 3) :
    (destination ++ op ++ source).extractLsb' 5 3 = destination ∧
    (destination ++ op ++ source).extractLsb' 3 2 = op ∧ (destination ++ op ++ source).extractLsb' 0 3 = source := by
  revert destination op source; decide

theorem movByte_parts (b : BitVec 8) : b.extractLsb' 5 3 ++ b.extractLsb' 3 2 ++ b.extractLsb' 0 3 = b := by
  revert b; decide

/-! ## What the decoder reads, a row of the opcode table at a time (R72) -/

theorem decodeInstr_jmp (m : Config.EnumMap) (ds : Five) (b : BitVec 8) :
    decodeInstr m (packWord 0 ds b) = decodeJmp m.jmp (b.extractLsb' 5 3) ds (b.extractLsb' 0 5) := by
  simp (disch := decide) only [decodeInstr, packWord_opcode, packWord_ds, packWord_low]
  rfl

theorem decodeInstr_wait (m : Config.EnumMap) (ds : Five) (b : BitVec 8) :
    decodeInstr m (packWord 1 ds b) =
      decodeWait m.wait (b.extractLsb' 5 2) ds (b.getLsbD 7) (b.extractLsb' 0 5) := by
  simp (disch := decide) only [decodeInstr, packWord_opcode, packWord_ds, packWord_low, packWord_getLsbD]
  rfl

theorem decodeInstr_inBits (m : Config.EnumMap) (ds : Five) (b : BitVec 8) :
    decodeInstr m (packWord 2 ds b) = .inBits ds (b.extractLsb' 5 3) (b.extractLsb' 0 5) := by
  simp (disch := decide) only [decodeInstr, packWord_opcode, packWord_ds, packWord_low]
  rfl

theorem decodeInstr_outBits (m : Config.EnumMap) (ds : Five) (b : BitVec 8) :
    decodeInstr m (packWord 3 ds b) = .outBits ds (b.extractLsb' 5 3) (b.extractLsb' 0 5) := by
  simp (disch := decide) only [decodeInstr, packWord_opcode, packWord_ds, packWord_low]
  rfl

theorem decodeInstr_push (m : Config.EnumMap) (ds : Five) {b : BitVec 8} (h : b.getLsbD 7 = false) :
    decodeInstr m (packWord 4 ds b) = .push ds (b.getLsbD 6) (b.getLsbD 5) := by
  simp (disch := decide) only [decodeInstr, packWord_opcode, packWord_ds, packWord_getLsbD, h]
  rfl

theorem decodeInstr_pull (m : Config.EnumMap) (ds : Five) {b : BitVec 8} (h : b.getLsbD 7 = true) :
    decodeInstr m (packWord 4 ds b) = .pull ds (b.getLsbD 6) (b.getLsbD 5) := by
  simp (disch := decide) only [decodeInstr, packWord_opcode, packWord_ds, packWord_getLsbD, h]
  rfl

theorem decodeInstr_mov (m : Config.EnumMap) (ds : Five) (b : BitVec 8) :
    decodeInstr m (packWord 5 ds b) = .mov ds (b.extractLsb' 5 3) (b.extractLsb' 3 2) (b.extractLsb' 0 3) := by
  simp (disch := decide) only [decodeInstr, packWord_opcode, packWord_ds, packWord_low]
  rfl

theorem decodeInstr_irq (m : Config.EnumMap) (ds : Five) (b : BitVec 8) :
    decodeInstr m (packWord 6 ds b) = .irq ds (b.getLsbD 6) (b.getLsbD 5) (b.extractLsb' 0 5) := by
  simp (disch := decide) only [decodeInstr, packWord_opcode, packWord_ds, packWord_low, packWord_getLsbD]
  rfl

theorem decodeInstr_set (m : Config.EnumMap) (ds : Five) (b : BitVec 8) :
    decodeInstr m (packWord 7 ds b) = decodeSet m.set (b.extractLsb' 5 3) ds (b.extractLsb' 0 5) := by
  simp (disch := decide) only [decodeInstr, packWord_opcode, packWord_ds, packWord_low]

/-! ## Decoding an encoding (R88) -/

theorem decodeInstr_encode {m : Config.EnumMap} (h : Config.enumsOk m = true) (i : Instr) :
    decodeInstr m (encode m i) = i := by
  cases i with
  | jmpAlways ds a | jmpNotX ds a | jmpXDec ds a | jmpNotY ds a | jmpYDec ds a | jmpXNeY ds a | jmpPin ds a
  | jmpNotOsre ds a =>
    rw [encode, decodeInstr_jmp, lowByte_high, lowByte_low]
    simp only [decodeJmp_number h]
  | waitGpio ds p n | waitPin ds p n | waitIrq ds p n | waitRsvd ds p n =>
    rw [encode, decodeInstr_wait, waitByte_polarity, waitByte_source, waitByte_index]
    simp only [decodeWait_number h]
  | inBits => rw [encode, decodeInstr_inBits, lowByte_high, lowByte_low]
  | outBits => rw [encode, decodeInstr_outBits, lowByte_high, lowByte_low]
  | push => rw [encode, decodeInstr_push m _ (flagByte_bit7 ..), flagByte_bit6, flagByte_bit5]
  | pull => rw [encode, decodeInstr_pull m _ (flagByte_bit7 ..), flagByte_bit6, flagByte_bit5]
  | mov ds destination op source =>
    obtain ⟨hdestination, hop, hsource⟩ := movByte_fields destination op source
    rw [encode, decodeInstr_mov, hdestination, hop, hsource]
  | irq => rw [encode, decodeInstr_irq, flagByte_bit6, flagByte_bit5, flagByte_low]
  | setPins ds d | setX ds d | setY ds d | setRsvd3 ds d | setPindirs ds d | setRsvd5 ds d | setRsvd6 ds d
  | setRsvd7 ds d =>
    rw [encode, decodeInstr_set, lowByte_high, lowByte_low]
    simp only [decodeSet_number h]

/-- The upper half of an instruction-memory word plays no part (R70). -/
theorem decode_append (m : Config.EnumMap) (upper : BitVec 16) (w : InstrWord) :
    decode m (upper ++ w) = decodeInstr m w := by
  rw [decode, BitVec.setWidth_append_eq_right]

/-! ## Encoding what was decoded (R86, R88) -/

theorem encode_decodeJmp {m : Config.EnumMap} (h : Config.enumsOk m = true) (c : BitVec 3) (ds a : Five) :
    encode m (decodeJmp m.jmp c ds a) = packWord 0 ds (lowByte c a) := by
  rcases jmp_numbers h c with rfl | rfl | rfl | rfl | rfl | rfl | rfl | rfl <;>
    simp only [decodeJmp_number h, encode]

theorem encode_decodeWait {m : Config.EnumMap} (h : Config.enumsOk m = true) (c : BitVec 2) (ds : Five) (p : Bool)
    (n : Five) : encode m (decodeWait m.wait c ds p n) = packWord 1 ds (waitByte p c n) := by
  rcases wait_numbers h c with rfl | rfl | rfl | rfl <;> simp only [decodeWait_number h, encode]

theorem encode_decodeSet {m : Config.EnumMap} (h : Config.enumsOk m = true) (c : BitVec 3) (ds d : Five) :
    encode m (decodeSet m.set c ds d) = packWord 7 ds (lowByte c d) := by
  rcases set_numbers h c with rfl | rfl | rfl | rfl | rfl | rfl | rfl | rfl <;>
    simp only [decodeSet_number h, encode]

/-- The bits of the low byte that an opcode's instructions depend on (R86). -/
def significantLow (opcode : BitVec 3) : BitVec 8 :=
  if opcode = 4 then 0xE0 else if opcode = 6 then 0x7F else 0xFF

/-- But for PUSH, PULL and IRQ the whole low byte is significant. -/
theorem and_significantLow {opcode : BitVec 3} (h : opcode ≠ 4 ∧ opcode ≠ 6) (b : BitVec 8) :
    b &&& significantLow opcode = b := by
  rw [significantLow, if_neg h.1, if_neg h.2]
  exact BitVec.and_allOnes

theorem significantBits_packWord (opcode : BitVec 3) (ds : Five) (b : BitVec 8) :
    significantBits (packWord opcode ds b) = packWord 7 31 (significantLow opcode) := by
  rw [significantBits, packWord_opcode]
  revert opcode; decide

/-- Every bit above the low byte is significant. -/
theorem packWord_significant (opcode : BitVec 3) (ds : Five) (b : BitVec 8) :
    packWord opcode ds b &&& significantBits (packWord opcode ds b) =
      packWord opcode ds (b &&& significantLow opcode) := by
  rw [significantBits_packWord, packWord_and]
  congr 1
  · exact BitVec.and_allOnes
  · exact BitVec.and_allOnes

theorem encode_decodeInstr {m : Config.EnumMap} (h : Config.enumsOk m = true) (w : InstrWord) :
    encode m (decodeInstr m w) = w &&& significantBits w := by
  obtain ⟨opcode, ds, b, rfl⟩ := exists_packWord w
  have hrows : opcode = 0 ∨ opcode = 1 ∨ opcode = 2 ∨ opcode = 3 ∨ opcode = 4 ∨ opcode = 5 ∨ opcode = 6 ∨
      opcode = 7 := by revert opcode; decide
  rw [packWord_significant]
  rcases hrows with rfl | rfl | rfl | rfl | rfl | rfl | rfl | rfl
  · rw [decodeInstr_jmp, encode_decodeJmp h, lowByte_parts, and_significantLow (by decide)]
  · rw [decodeInstr_wait, encode_decodeWait h, waitByte_parts, and_significantLow (by decide)]
  · rw [decodeInstr_inBits, encode, lowByte_parts, and_significantLow (by decide)]
  · rw [decodeInstr_outBits, encode, lowByte_parts, and_significantLow (by decide)]
  · have hflags : flagByte (b.getLsbD 7) (b.getLsbD 6) (b.getLsbD 5) 0 = b &&& significantLow 4 :=
      flagByte_parts_highOnly b
    cases h7 : b.getLsbD 7 with
    | false => rw [decodeInstr_push m ds h7, encode, ← h7, hflags]
    | true => rw [decodeInstr_pull m ds h7, encode, ← h7, hflags]
  · rw [decodeInstr_mov, encode, movByte_parts, and_significantLow (by decide)]
  · rw [decodeInstr_irq, encode]
    exact congrArg (packWord 6 ds) (flagByte_parts_noBit7 b)
  · rw [decodeInstr_set, encode_decodeSet h, lowByte_parts, and_significantLow (by decide)]

end Sys2Proof

namespace Sys2Proof.Machine

/-! ## The encodings that fault (R85) -/

/-- What an encoding R85 does not list can raise with SIDESET_COUNT 0. -/
theorem mayFault_of_executable {i : Instr} {s : State} {k : Fault} (hi : i.executable = true) (h : mayFault i s k) :
    (k = .fifoFull ∧ i.kind = .push) ∨
      (k = .outOfRange (setPinCount s) ∧ 32 < setPinCount s ∧
        ∃ ds data, i = .setPins ds data ∨ i = .setPindirs ds data) := by
  cases i with
  | push => exact .inl ⟨h, rfl⟩
  | setPins ds data => exact .inr ⟨h.2, h.1, ds, data, .inl rfl⟩
  | setPindirs ds data => exact .inr ⟨h.2, h.1, ds, data, .inr rfl⟩
  | waitIrq => exact absurd h.1 (Nat.not_le.mpr (of_decide_eq_true hi))
  | waitRsvd | inBits | outBits | mov | irq | setRsvd3 | setRsvd5 | setRsvd6 | setRsvd7 => cases hi
  | _ => exact h.elim

/-- A PUSH changes the latch only as a nonblocking one on a full RX FIFO (R120, R155). -/
theorem execPush_halted {s t : State} (hs : s.sideSetOff) {ds : Five} {ifFull block : Bool}
    (h : execPush ds ifFull block s = .next t) (ht : t.halted ≠ s.halted) :
    block = false ∧ 4 ≤ (active s).rxf.length := by
  rw [execPush_off hs] at h
  split at h
  · cases h
    exact absurd rfl ht
  split at h
  · cases h
    exact absurd rfl ht
  next hstall =>
    rcases Nat.lt_or_ge (active s).rxf.length 4 with room | full
    · rw [pushTransfer_room (s := setDelay ds s) room] at h
      cases h
      exact absurd rfl ht
    · exact ⟨Bool.eq_false_iff.mpr fun hblock => hstall ⟨hblock, full⟩, full⟩

/-- A flag index of 8 or more has no flag (R113). -/
theorem irqFlag_outOfRange {index : Five} (h : 8 ≤ index.toNat) (s : State) :
    irqFlag index s = .error (.indexOutOfRange index) :=
  if_pos h

/-- An encoding R85 lists answers, on every state, a fault of its own, which is neither FifoFull nor OutOfRange. -/
theorem exec_of_not_executable {i : Instr} {s : State} (hs : s.sideSetOff) (hi : i.executable = false) :
    ∃ k, mayFault i s k ∧ k ≠ .fifoFull ∧ (∀ n, k ≠ .outOfRange n) ∧ exec i s = .next (s.faulted i.ds k) := by
  cases i with
  | waitIrq ds polarity index =>
    have h8 : 8 ≤ index.toNat := Nat.not_lt.mp (of_decide_eq_false hi)
    exact ⟨_, ⟨h8, rfl⟩, nofun, nofun, waitFor_error hs (irqFlag_outOfRange h8 _) polarity⟩
  | waitRsvd ds polarity index =>
    exact ⟨_, rfl, nofun, nofun, waitFor_error (poll := fun _ => .error .unsupportedInstruction) hs rfl polarity⟩
  | inBits ds | outBits ds | mov ds | irq ds => exact ⟨_, rfl, nofun, nofun, unimplemented_off hs ds⟩
  | setRsvd3 ds | setRsvd5 ds | setRsvd6 ds | setRsvd7 ds =>
    exact ⟨_, rfl, nofun, nofun, setReserved_off hs _ ds⟩
  | _ => cases hi

/-! ## The statements -/

/-- Settles O2: each constructor's encoding is read back by its row of the decoder, and an admitted numbering gives
each member back from its own number. -/
theorem decodeEncodeRoundTrip : Obligations.DecodeEncodeRoundTrip :=
  fun m i upper h => (decode_append m upper (encode m i)).trans (decodeInstr_encode h i)

/-- Settles O3, opcode by opcode: every word is packed from its parts, every number is some member's, and the two masks
are those of the ignored bits. -/
theorem encodeDecodeKeepsSignificantBits : Obligations.EncodeDecodeKeepsSignificantBits :=
  fun _ w h => encode_decodeInstr h (w.setWidth 16)

/-- Settles O19: the latch of an encoding that is not listed is read off its footprint, and a listed one answers its
own fault. -/
theorem faultsAreExactlyTheListed : Obligations.FaultsAreExactlyTheListed := by
  intro i s hs
  refine ⟨fun hi t hnone hexec ht => ?_, fun hi => ?_⟩
  · obtain heq | ⟨k, hk, ⟨hon, -⟩ | hmay⟩ := (exec_footprint hexec).latch
    · exact absurd (heq.trans hnone) ht
    · exact absurd hs hon
    · rcases mayFault_of_executable hi hmay with ⟨rfl, hpush⟩ | ⟨rfl, hcount, hset⟩
      · cases i with
        | push ds ifFull block =>
          obtain ⟨rfl, full⟩ := execPush_halted hs hexec (hnone ▸ ht)
          exact .inl ⟨hk, ⟨ds, ifFull, rfl⟩, full⟩
        | _ => cases hpush
      · exact .inr ⟨hk, hcount, hset⟩
  · obtain ⟨k, hmay, hfull, hrange, hexec⟩ := exec_of_not_executable hs hi
    exact ⟨k, mayFault_fromStep hmay, hfull, hrange, hexec⟩

/-- Settles O1: ten fixed words, evaluated. -/
theorem decodeReadsSpecWords : Obligations.DecodeReadsSpecWords := by
  unfold Obligations.DecodeReadsSpecWords
  decide

end Sys2Proof.Machine

/-! SUPPORT. What a Step answers: its two stages, an answer for every instruction with the delay it charged, and the
runs made of Steps, with the statements about the Step settled from that. -/

namespace Sys2Proof.Machine

/-! ## The delay charge (R93, R94) -/

/-- With SIDESET_COUNT not 0 every instruction is its delay charge and UnsupportedInstruction (R94). -/
theorem exec_on {s : State} (h : sidesetCount s ≠ 0) (i : Instr) :
    exec i s = .next { chargeDelay i.ds s with halted := some .unsupportedInstruction } := by
  obtain ⟨rest, hrest⟩ := exec_withDelay i s
  rw [hrest, withDelay_on h]
  rfl

theorem chargeDelay_toNat_narrow {ds : Five} {s : State} (h : sidesetCount s < 5) :
    (chargeDelay ds s).pendingDelay.toNat = ds.toNat % 2 ^ (5 - sidesetCount s) := by
  rw [chargeDelay_narrow h, BitVec.toNat_ofNat]
  exact Nat.mod_eq_of_lt ((Nat.mod_le _ _).trans_lt ds.isLt)

/-- A JMP leaves its `ds` pending if its condition leaves the charged delay alone (R100). -/
theorem jump_charged {s : State} (hs : s.sideSetOff) {cond : State → Bool × State} {ds : Five} (a : Five)
    (hc : (cond (setDelay ds s)).2.pendingDelay = ds) :
    ∃ t, jump cond ds a s = .next t ∧ t.pendingDelay = ds := by
  refine ⟨_, jump_off hs cond ds a, ?_⟩
  split
  · exact hc
  · exact hc

/-- A WAIT leaves its `ds` pending, or is held (R110, R115). -/
theorem waitFor_charged {i : Instr} {s : State} (hs : s.sideSetOff) (hi : i.kind = .wait)
    (poll : State → Except Fault Bool) (ds : Five) (polarity : Bool) :
    ∃ t, waitFor poll ds polarity s = .next t ∧ (t.pendingDelay = ds ∨ (i.kind = .wait ∧ t = s)) := by
  cases hp : poll (setDelay ds s) with
  | error k => exact ⟨_, waitFor_error hs hp polarity, .inl rfl⟩
  | ok b =>
    refine ⟨_, waitFor_ok hs hp polarity, ?_⟩
    split
    · exact .inl rfl
    · exact .inr ⟨hi, rfl⟩

theorem pushTransfer_pendingDelay (s : State) :
    ∃ t, pushTransfer s = .next t ∧ t.pendingDelay = s.pendingDelay := by
  rcases Nat.lt_or_ge (active s).rxf.length 4 with room | full
  · exact ⟨_, pushTransfer_room room, rfl⟩
  · exact ⟨_, pushTransfer_full full, rfl⟩

theorem pullTransfer_pendingDelay (s : State) :
    ∃ t, pullTransfer s = .next t ∧ t.pendingDelay = s.pendingDelay := by
  cases hq : (active s).txf with
  | nil => exact ⟨_, pullTransfer_nil hq, rfl⟩
  | cons v q => exact ⟨_, pullTransfer_cons hq, rfl⟩

/-- PUSH leaves its `ds` pending in each of its three stages (R122). -/
theorem execPush_charged {s : State} (hs : s.sideSetOff) (ds : Five) (ifFull block : Bool) :
    ∃ t, execPush ds ifFull block s = .next t ∧ t.pendingDelay = ds := by
  rw [execPush_off hs]
  split
  · exact ⟨_, rfl, rfl⟩
  split
  · exact ⟨_, rfl, rfl⟩
  · exact pushTransfer_pendingDelay (setDelay ds s)

/-- PULL leaves its `ds` pending in each of its three stages (R122). -/
theorem execPull_charged {s : State} (hs : s.sideSetOff) (ds : Five) (ifEmpty block : Bool) :
    ∃ t, execPull ds ifEmpty block s = .next t ∧ t.pendingDelay = ds := by
  rw [execPull_off hs]
  split
  · exact ⟨_, rfl, rfl⟩
  split
  · exact ⟨_, rfl, rfl⟩
  · exact pullTransfer_pendingDelay (setDelay ds s)

/-- SET of a plane leaves its `ds` pending, faulted or not (R130, R164). -/
theorem setPlane_charged {s : State} (hs : s.sideSetOff) (write : Nat → Nat → Word → Gpio → Except Fault Gpio)
    (ds data : Five) : ∃ t, setPlane write ds data s = .next t ∧ t.pendingDelay = ds := by
  cases hw : write (setBaseIndex s) (setPinCount s) (immediate data) s.gpio with
  | ok g => exact ⟨_, setPlane_off hs hw, rfl⟩
  | error k => exact ⟨_, setPlane_error hs hw, rfl⟩

/-- The 26 arms with SIDESET_COUNT 0: a WAIT may be held, any other instruction leaves its `ds` pending. -/
theorem exec_charged {s : State} (hs : s.sideSetOff) (i : Instr) :
    ∃ t, exec i s = .next t ∧ (t.pendingDelay = i.ds ∨ (i.kind = .wait ∧ t = s)) := by
  have charged {ds : Five} {a : Answer} (h : ∃ t, a = .next t ∧ t.pendingDelay = ds) :
      ∃ t, a = .next t ∧ (t.pendingDelay = ds ∨ (i.kind = .wait ∧ t = s)) :=
    h.imp fun _ => And.imp_right .inl
  cases i with
  | jmpAlways ds a | jmpNotX ds a | jmpXDec ds a | jmpNotY ds a | jmpYDec ds a | jmpXNeY ds a | jmpPin ds a
  | jmpNotOsre ds a => exact charged (jump_charged hs a rfl)
  | waitGpio ds polarity index => exact waitFor_charged hs rfl (fun u => .ok (gpioRead index.toNat u.gpio)) ds polarity
  | waitPin ds polarity index =>
    exact waitFor_charged hs rfl (fun u => .ok (gpioRead (waitPinIndex u index) u.gpio)) ds polarity
  | waitIrq ds polarity index => exact waitFor_charged hs rfl (irqFlag index) ds polarity
  | waitRsvd ds polarity => exact waitFor_charged hs rfl (fun _ => .error .unsupportedInstruction) ds polarity
  | inBits ds | outBits ds | mov ds | irq ds => exact charged ⟨_, unimplemented_off hs ds, rfl⟩
  | push ds ifFull block => exact charged (execPush_charged hs ds ifFull block)
  | pull ds ifEmpty block => exact charged (execPull_charged hs ds ifEmpty block)
  | setPins ds data | setPindirs ds data => exact charged (setPlane_charged hs _ ds data)
  | setX ds data => exact charged ⟨_, setScratch_off hs (fun r => { r with x := immediate data }) ds, rfl⟩
  | setY ds data => exact charged ⟨_, setScratch_off hs (fun r => { r with y := immediate data }) ds, rfl⟩
  | setRsvd3 ds | setRsvd5 ds | setRsvd6 ds | setRsvd7 ds => exact charged ⟨_, setReserved_off hs _ ds, rfl⟩

/-! ## The answer and the outcome of a Step (R90, R91) -/

theorem exec_total (i : Instr) (s : State) : ∃ t, exec i s = .next t := by
  by_cases hs : s.sideSetOff
  · obtain ⟨t, h, -⟩ := exec_charged hs i
    exact ⟨t, h⟩
  · exact ⟨_, exec_on hs i⟩

theorem step_total {s : State} (h : s.halted = none) : ∃ t, step s = .next t := by
  by_cases hd : s.pendingDelay = 0
  · rw [step_of_atFetch ⟨h, hd⟩]
    exact exec_total s.fetched s
  · exact ⟨_, step_of_pendingDelay h hd⟩

theorem verdict_of_next {s t : State} (h : step s = .next t) : verdict s = some (verdictOf s t) := by
  rw [verdict, h]

/-- A Step that changes the block and latches nothing is `Ok` (R90). -/
theorem verdictOf_ok {s t : State} (h : t.halted = none) (hne : t ≠ s) : verdictOf s t = .ok := by
  simp [verdictOf, h, hne]

theorem pred_toNat_succ {d : BitVec 5} (h : d ≠ 0) : (d - 1).toNat + 1 = d.toNat := by
  bv_omega

theorem delayStage_ne {s : State} (h : s.pendingDelay ≠ 0) : delayStage s ≠ s := by
  intro heq
  have hsame : s.pendingDelay - 1 = s.pendingDelay := congrArg State.pendingDelay heq
  have hpred := pred_toNat_succ h
  rw [hsame] at hpred
  omega

/-! ## Runs of Steps (R95, R96) -/

theorem core_run_succ_of_step {M : Host.Core} {s t : M.State} (h : M.step s = .next t) (k : Nat) :
    M.run (k + 1) s = M.run k t := by
  rw [Host.Core.run, h]

theorem run_succ_of_step {s t : State} (h : step s = .next t) (k : Nat) :
    Host.Core.run core (k + 1) s = Host.Core.run core k t :=
  core_run_succ_of_step (M := core) h k

/-- One turn of the run loop: it ends if the Step latched a fault and goes on otherwise (R96). -/
theorem runLoop_succ_of_step {s t : State} (h : step s = .next t) (n : Nat) :
    runLoop (n + 1) s = if t.halted.isSome then (t, t.halted) else runLoop n t := by
  rw [runLoop, h]

/-- The Steps of the delay stage alone (R91, R95). -/
theorem run_delayStage (k : Nat) : ∀ {s : State}, s.halted = none → k ≤ s.pendingDelay.toNat →
    Host.Core.run core k s = .next (setDelay (s.pendingDelay - BitVec.ofNat 5 k) s) := by
  induction k with
  | zero =>
    intro s _ _
    have hzero : s.pendingDelay - BitVec.ofNat 5 0 = s.pendingDelay := by simp
    rw [hzero, setDelay_self]
    rfl
  | succ k ih =>
    intro s hhalted hk
    have hd : s.pendingDelay ≠ 0 := by
      intro h0
      rw [h0] at hk
      exact absurd hk (by simp)
    have hpred := pred_toNat_succ hd
    have hle : k ≤ (delayStage s).pendingDelay.toNat := by
      have : (delayStage s).pendingDelay.toNat = (s.pendingDelay - 1).toNat := rfl
      omega
    have hsub : s.pendingDelay - 1 - BitVec.ofNat 5 k = s.pendingDelay - BitVec.ofNat 5 (k + 1) := by
      rw [BitVec.ofNat_add]
      bv_omega
    calc Host.Core.run core (k + 1) s
        = Host.Core.run core k (delayStage s) := run_succ_of_step (step_of_pendingDelay hhalted hd) k
      _ = .next (setDelay (s.pendingDelay - 1 - BitVec.ofNat 5 k) s) := ih hhalted hle
      _ = .next (setDelay (s.pendingDelay - BitVec.ofNat 5 (k + 1)) s) := by rw [hsub]

/-- A run loop that returns a fault made Steps without one up to the Step that latched it (R96). -/
theorem runLoop_some (n : Nat) : ∀ {s t : State} {k : Fault}, s.halted = none → runLoop n s = (t, some k) →
    ∃ m u, m < n ∧ Host.Core.run core m s = .next u ∧ u.halted = none ∧ step u = .next t ∧ t.halted = some k := by
  induction n with
  | zero =>
    intro s t k hhalted h
    exact absurd (hhalted.symm.trans (congrArg Prod.snd h)) nofun
  | succ n ih =>
    intro s t k hhalted h
    obtain ⟨u, hu⟩ := step_total hhalted
    rw [runLoop_succ_of_step hu] at h
    split at h
    next =>
      obtain ⟨rfl, hk⟩ := Prod.mk.inj h
      exact ⟨0, s, n.succ_pos, rfl, hhalted, hu, hk⟩
    next hnone =>
      obtain ⟨m, v, hm, hrun, hv⟩ := ih (Option.not_isSome_iff_eq_none.mp hnone) h
      exact ⟨m + 1, v, Nat.succ_lt_succ hm, (run_succ_of_step hu m).trans hrun, hv⟩

/-- A run loop that returns no fault made all its Steps. -/
theorem runLoop_none (n : Nat) : ∀ {s t : State}, s.halted = none → runLoop n s = (t, none) →
    t.halted = none ∧ Host.Core.run core n s = .next t := by
  induction n with
  | zero =>
    intro s t hhalted h
    obtain ⟨rfl, -⟩ := Prod.mk.inj h
    exact ⟨hhalted, rfl⟩
  | succ n ih =>
    intro s t hhalted h
    obtain ⟨u, hu⟩ := step_total hhalted
    rw [runLoop_succ_of_step hu] at h
    split at h
    next hsome =>
      obtain ⟨-, hnone⟩ := Prod.mk.inj h
      exact absurd hsome (by simp [hnone])
    next hnone =>
      rw [run_succ_of_step hu]
      exact ih (Option.not_isSome_iff_eq_none.mp hnone) h

/-! ## The statements -/

/-- Settles O7, by induction on the number of Steps, each of them the delay stage. -/
theorem delayIsSpentBeforeNextFetch : Obligations.DelayIsSpentBeforeNextFetch :=
  fun _ k => run_delayStage k

/-- Settles O9: every arm answers a next state, with SIDESET_COUNT 0 and without. -/
theorem unhaltedBlockAlwaysSteps : Obligations.UnhaltedBlockAlwaysSteps := by
  intro s h
  obtain ⟨t, ht⟩ := step_total h
  exact ⟨t, verdictOf s t, ht, verdict_of_next ht⟩

/-- Settles O14, from the footprint of the delay stage and of every instruction. -/
theorem stepTouchesOnlyItsLane : Obligations.StepTouchesOnlyItsLane :=
  fun _ _ => step_sameUntouched

/-- Settles O17: every arm begins with the charge of its `ds`, which here ends in the fault. -/
theorem sideSetFaultComesFirst : Obligations.SideSetFaultComesFirst := by
  intro i s h
  refine ⟨_, exec_on h i, ?_, fun hlt => chargeDelay_toNat_narrow hlt, fun h5 => ?_⟩
  · rw [chargeDelay_eq]
  · rw [chargeDelay_five h5]

/-- Settles O18, arm by arm through the shared meanings. -/
theorem delayIsChargedInEveryCase : Obligations.DelayIsChargedInEveryCase := by
  intro i s t hs h
  obtain ⟨u, hu, hcharged⟩ := exec_charged hs i
  obtain rfl : t = u := Host.Outcome.next.inj (h.symm.trans hu)
  exact hcharged

/-- Settles O56, by induction on the bound: every turn of the loop has a Step. -/
theorem runLoopEndsAtFirstFault : Obligations.RunLoopEndsAtFirstFault :=
  fun _ _ n h => ⟨fun _ => runLoop_some n h, runLoop_none n h⟩

/-- Settles O4: the fetch never faults, so the Step is the execution of the decoded word. -/
theorem stepRunsFetchedInstruction : Obligations.StepRunsFetchedInstruction :=
  fun _ _ h hi => hi ▸ step_of_atFetch h

/-- Settles O6: the delay stage changes the block, so its outcome is `Ok` and not `Held`. -/
theorem delayStageCountsDown : Obligations.DelayStageCountsDown := by
  intro s hhalted hd
  have hstep := step_of_pendingDelay hhalted hd
  have hok : verdictOf s (delayStage s) = .ok := verdictOf_ok hhalted (delayStage_ne hd)
  exact ⟨s.pendingDelay - 1, pred_toNat_succ hd, hstep, hok ▸ verdict_of_next hstep⟩

end Sys2Proof.Machine

/-! SUPPORT. What JMP answers, said once over its condition, and the block with no program loaded, with the statements
about JMP settled from that. -/

namespace Sys2Proof.Machine

/-! ## The answer of a JMP (R100) -/

/-- A JMP whose condition holds just when `P` does and leaves the lane's record as `r` goes to its address if `P` and
to the next index otherwise. -/
theorem jump_completed {s : State} (hs : s.sideSetOff) {cond : State → Bool × State} {ds : Five} {r : Lane}
    {P : Prop} [Decidable P] (hstate : (cond (setDelay ds s)).2 = s.completed ds r)
    (htest : (cond (setDelay ds s)).1 = true ↔ P) (a : Five) :
    jump cond ds a s = .next (s.completed ds (if P then { r with pc := a } else r.advanced)) := by
  have hr : active (s.completed ds r) = r := active_setActive _ r
  rw [jump_off hs, hstate, hr]
  by_cases h : P
  · rw [if_pos (htest.mpr h), if_pos h]
    simp [State.completed]
  · rw [if_neg (mt htest.mp h), if_neg h]
    simp [State.completed, incPc, Lane.advanced]

/-- A JMP whose condition changes nothing. -/
theorem jump_test {s : State} (hs : s.sideSetOff) {cond : State → Bool × State} {ds : Five} {P : Prop} [Decidable P]
    (hstate : (cond (setDelay ds s)).2 = setDelay ds s) (htest : (cond (setDelay ds s)).1 = true ↔ P) (a : Five) :
    jump cond ds a s =
      .next (s.completed ds (if P then { active s with pc := a } else (active s).advanced)) :=
  jump_completed hs (hstate.trans (completed_active s ds).symm) htest a

/-- A JMP that goes on just when `P` holds: the same with the branches named the other way round. -/
theorem jump_test_not {s : State} (hs : s.sideSetOff) {cond : State → Bool × State} {ds : Five} {P : Prop}
    [Decidable P] (hstate : (cond (setDelay ds s)).2 = setDelay ds s)
    (htest : (cond (setDelay ds s)).1 = true ↔ ¬ P) (a : Five) :
    jump cond ds a s =
      .next (s.completed ds (if P then (active s).advanced else { active s with pc := a })) := by
  rw [jump_test hs hstate htest a, ite_not]

theorem exec_jmpAlways {s : State} (hs : s.sideSetOff) (ds a : Five) :
    exec (.jmpAlways ds a) s = .next (s.completed ds { active s with pc := a }) :=
  (jump_test (cond := condAlways) (P := True) hs rfl (iff_of_true rfl trivial) a).trans (by rw [if_pos trivial])

/-- A JMP that goes on just when the old value `v` was 0: both branches leave the same record but for `pc` (R103,
R105). -/
theorem jump_postDecrement {s : State} (hs : s.sideSetOff) {cond : State → Bool × State} {ds : Five} {r : Lane}
    {v : Word} (hstate : (cond (setDelay ds s)).2 = s.completed ds r) (htest : (cond (setDelay ds s)).1 = (v != 0))
    (a : Five) :
    jump cond ds a s = .next (s.completed ds { r with pc := if v = 0 then r.pc + 1 else a }) := by
  rw [jump_completed hs hstate (P := v ≠ 0) (by rw [htest, bne_iff_ne]) a]
  by_cases h : v = 0
  · rw [if_neg (not_not_intro h), if_pos h, Lane.advanced]
  · rw [if_pos h, if_neg h]

/-- The decrement is modulo 2^32: 0 becomes 0xFFFFFFFF (R12; D6). -/
theorem pred_toNat (v : Word) : (v - 1).toNat = (v.toNat + (2 ^ 32 - 1)) % 2 ^ 32 := by
  rw [BitVec.toNat_sub, Nat.add_comm]
  rfl

/-! ## A block with no program loaded (R183) -/

/-- The one number the source gives a JMP condition (R81). -/
theorem enumsOk_always {m : Config.EnumMap} (h : Config.enumsOk m = true) : m.jmp.always = 0 := by
  simp only [Config.enumsOk, Bool.and_eq_true, beq_iff_eq] at h
  obtain ⟨⟨⟨-, halways⟩, -⟩, -⟩ := h
  exact halways

/-- The word 0 is `JMP 0` with no delay, in every admitted numbering (R101, R183). -/
theorem decode_zero {m : Config.EnumMap} (h : Config.enumsOk m = true) : decode m 0 = .jmpAlways 0 0 := by
  have hzero : (0 : Word) = (0 : BitVec 16) ++ encode m (.jmpAlways 0 0) := by
    rw [encode, enumsOk_always h]
    decide
  rw [hzero, decode_append, decodeInstr_encode h]

/-- SIDESET_COUNT shares no bit with SET_COUNT, the only field of PINCTRL with a reset value that is not 0 (R31). -/
theorem atReset_sideSetOff {p : Config.Params} (h : Config.layoutOk p.layout = true) (lane : Fin 4) (pins : Gpio) :
    (State.atReset p lane pins).sideSetOff := by
  have hapart := layoutOk_apart h (n := lane) (n' := lane) (f := .setCount) (g := .sidesetCount) rfl (by decide)
  calc getField (bankWord (resetBank p.layout) (regOffset (.sm lane .pinctrl))) p.layout.sidesetCount
      = getField (setField 0 p.layout.setCount 5) p.layout.sidesetCount := by rw [bankWord_resetBank]; rfl
    _ = getField 0 p.layout.sidesetCount := getField_setField_apart (layoutOk_inWord h .sidesetCount).2 hapart 0 5
    _ = 0 := by simp [getField]

theorem active_atReset (p : Config.Params) (lane : Fin 4) (pins : Gpio) :
    active (State.atReset p lane pins) = Lane.atReset p :=
  getLane_atReset p lane lane pins

theorem fetched_atReset {p : Config.Params} (h : Config.enumsOk p.enums = true) (lane : Fin 4) (pins : Gpio) :
    (State.atReset p lane pins).fetched = .jmpAlways 0 0 := by
  have hword : bankWord (resetBank p.layout) (instrOffset 0) = 0 := bankWord_resetBank p.layout (.instrMem 0)
  rw [State.fetched, active_atReset]
  exact (congrArg (decode p.enums) hword).trans (decode_zero h)

/-- The first Step of a block just constructed is a jump from index 0 to index 0. -/
theorem step_atReset {p : Config.Params} (hp : p.ok = true) (lane : Fin 4) (pins : Gpio) :
    step (State.atReset p lane pins) = .next (State.atReset p lane pins) := by
  obtain ⟨hlayout, henums⟩ := Bool.and_eq_true_iff.mp hp
  have hsame : { active (State.atReset p lane pins) with pc := 0 } = active (State.atReset p lane pins) := by
    rw [active_atReset]
    rfl
  rw [step_of_atFetch ⟨rfl, rfl⟩, fetched_atReset henums, exec_jmpAlways (atReset_sideSetOff hlayout lane pins),
    hsame, completed_active]
  rfl

/-- A block that a Step leaves as it is stays so for ever. -/
theorem run_of_step_self {s : State} (h : step s = .next s) (k : Nat) : Host.Core.run core k s = .next s := by
  induction k with
  | zero => rfl
  | succ k ih => rw [run_succ_of_step h, ih]

/-! ## The statements -/

/-- Settles O23: the condition leaves the decremented record, and the test is on the old value. -/
theorem jmpPostDecrement : Obligations.JmpPostDecrement := by
  intro s ds a hs
  have hx := jump_postDecrement (cond := condXDec) (ds := ds)
    (r := { active s with x := (active s).x - 1 }) hs rfl rfl a
  have hy := jump_postDecrement (cond := condYDec) (ds := ds)
    (r := { active s with y := (active s).y - 1 }) hs rfl rfl a
  exact ⟨⟨_, pred_toNat (active s).x, hx⟩, ⟨_, pred_toNat (active s).y, hy⟩⟩

/-- Settles O59, by induction on the number of Steps: each is the self-jump that the word 0 encodes. -/
theorem unloadedBlockJumpsToItself : Obligations.UnloadedBlockJumpsToItself := by
  intro p lane pins k hp
  refine ⟨⟨rfl, rfl⟩, rfl, fun n => ?_, run_of_step_self (step_atReset hp lane pins) k⟩
  rw [getLane_atReset]
  exact ⟨rfl, rfl, rfl⟩

/-- Settles O21: the condition always holds. -/
theorem jmpAlwaysGoesToAddress : Obligations.JmpAlwaysGoesToAddress :=
  fun _ ds a hs => exec_jmpAlways hs ds a

/-- Settles O22: the test is that the register is 0. -/
theorem jmpOnZeroScratch : Obligations.JmpOnZeroScratch :=
  fun _ _ a hs =>
    ⟨jump_test (cond := condNotX) hs rfl beq_iff_eq a, jump_test (cond := condNotY) hs rfl beq_iff_eq a⟩

/-- Settles O24: the test is that the registers are not equal. -/
theorem jmpOnDifferingScratch : Obligations.JmpOnDifferingScratch :=
  fun _ _ a hs => jump_test_not (cond := condXNeY) hs rfl bne_iff_ne a

/-- Settles O25: the test is the bit of the value plane itself. -/
theorem jmpOnConfiguredPin : Obligations.JmpOnConfiguredPin :=
  fun _ _ a hs => jump_test (cond := condPin) hs rfl Iff.rfl a

/-- Settles O26: the count has reached the threshold just when it is not below it. -/
theorem jmpOnOutputBitCount : Obligations.JmpOnOutputBitCount :=
  fun _ _ a hs => jump_test_not (cond := condNotOsre) hs rfl (decide_eq_true_iff.trans Nat.not_lt.symm) a

end Sys2Proof.Machine

/-! SUPPORT. What WAIT answers, a source at a time, and when a Step is `Held`, with the statements about WAIT settled
from that. -/

namespace Sys2Proof.Machine

/-! ## The answer of a WAIT, by its source (R110 to R115) -/

/-- A five-bit index is a pin itself: it does not wrap (R55, R111). -/
theorem gpioRead_five (index : Five) (g : Gpio) : gpioRead index.toNat g = g.value.getLsbD index.toNat := by
  rw [gpioRead, Nat.mod_eq_of_lt index.isLt]

theorem irqFlag_inRange {index : Five} (h : index.toNat < 8) (s : State) :
    irqFlag index s = .ok (s.irq.getLsbD index.toNat) :=
  if_neg (Nat.not_le.mpr h)

theorem exec_waitGpio {s : State} (hs : s.sideSetOff) (ds : Five) (polarity : Bool) (index : Five) :
    exec (.waitGpio ds polarity index) s =
      .next (if s.gpio.value.getLsbD index.toNat = polarity then s.completed ds (active s).advanced else s) :=
  waitFor_ok (poll := fun u => .ok (gpioRead index.toNat u.gpio)) (ds := ds) hs
    (congrArg Except.ok (gpioRead_five index s.gpio)) polarity

theorem exec_waitPin {s : State} (hs : s.sideSetOff) (ds : Five) (polarity : Bool) (index : Five) :
    exec (.waitPin ds polarity index) s =
      .next (if s.gpio.value.getLsbD ((index.toNat + configured s .inBase) % 32) = polarity
        then s.completed ds (active s).advanced else s) :=
  waitFor_ok (poll := fun u => .ok (gpioRead (waitPinIndex u index) u.gpio)) hs rfl polarity

theorem exec_waitIrq {s : State} (hs : s.sideSetOff) (ds : Five) (polarity : Bool) {index : Five}
    (h : index.toNat < 8) : exec (.waitIrq ds polarity index) s =
      .next (if s.irq.getLsbD index.toNat = polarity then s.completed ds (active s).advanced else s) :=
  waitFor_ok hs (irqFlag_inRange h (setDelay ds s)) polarity

/-! ## When a Step is held (R90, R115) -/

theorem fetchesWait_iff (s : State) : fetchesWait s = true ↔ s.fetched.kind = .wait := by
  rw [fetchesWait, fetch_eq]
  exact beq_iff_eq

theorem verdictOf_eq_held_iff {s t : State} :
    verdictOf s t = .held ↔ t.halted = none ∧ s.fetched.kind = .wait ∧ t = s := by
  rw [← fetchesWait_iff]
  unfold verdictOf
  cases t.halted <;> simp

/-- A WAIT that completes changes the block: it advances `pc`. -/
theorem completed_advanced_ne (s : State) (ds : Five) : s.completed ds (active s).advanced ≠ s := by
  intro heq
  have hlane : (active s).advanced = active s :=
    (active_setActive (setDelay ds s) (active s).advanced).symm.trans (congrArg active heq)
  have hpc : (active s).pc + 1 = (active s).pc := congrArg Lane.pc hlane
  bv_omega

/-- The outcome of a WAIT whose poll answers `b`. -/
theorem verdict_of_poll {s : State} {i : Instr} {ds : Five} {b polarity : Bool} (h : s.atFetch) (hi : s.fetched = i)
    (hwait : i.kind = .wait)
    (hexec : exec i s = .next (if b = polarity then s.completed ds (active s).advanced else s)) :
    verdict s = some (if b = polarity then .ok else .held) := by
  subst hi
  rw [verdict_of_next ((step_of_atFetch h).trans hexec)]
  obtain ⟨hhalted, -⟩ := h
  split
  · have hok : verdictOf s (s.completed ds (active s).advanced) = .ok :=
      verdictOf_ok hhalted (completed_advanced_ne s ds)
    rw [hok]
  · rw [verdictOf_eq_held_iff.mpr ⟨hhalted, hwait, rfl⟩]

/-- An instruction that latches nothing has SIDESET_COUNT 0 and is one that R85 does not list. -/
theorem executable_of_exec {i : Instr} {s t : State} (h : exec i s = .next t) (ht : t.halted = none) :
    s.sideSetOff ∧ i.executable = true := by
  have hs : s.sideSetOff := by
    by_contra hon
    cases h.symm.trans (exec_on hon i)
    cases ht
  refine ⟨hs, Bool.eq_true_of_not_eq_false fun hi => ?_⟩
  obtain ⟨k, -, -, -, hfault⟩ := exec_of_not_executable hs hi
  cases h.symm.trans hfault
  cases ht

/-- A held Step fetched a WAIT that can complete and left the block as it was. -/
theorem step_of_held {s : State} (h : s.atFetch) (hheld : verdict s = some .held) :
    s.fetched.kind = .wait ∧ s.sideSetOff ∧ s.fetched.executable = true ∧ step s = .next s := by
  obtain ⟨t, ht⟩ := step_total h.1
  rw [verdict_of_next ht, Option.some.injEq] at hheld
  obtain ⟨hnone, hwait, rfl⟩ := verdictOf_eq_held_iff.mp hheld
  obtain ⟨hs, hi⟩ := executable_of_exec ((step_of_atFetch h).symm.trans ht) hnone
  exact ⟨hwait, hs, hi, ht⟩

/-! ## The statements -/

/-- Settles O30: the index decides whether the poll answers a flag or IndexOutOfRange. -/
theorem waitIrqCompletesHoldsOrFaults : Obligations.WaitIrqCompletesHoldsOrFaults :=
  fun _ ds polarity _ hs =>
    ⟨exec_waitIrq hs ds polarity, fun h => waitFor_error hs (irqFlag_outOfRange h _) polarity⟩

/-- Settles O32: a held Step latched nothing, so it is no fault's, and a poll's two answers are told apart by `pc`. -/
theorem heldExactlyWhenPollDiffers : Obligations.HeldExactlyWhenPollDiffers :=
  fun _ h => ⟨step_of_held h, fun hs ds polarity index =>
    ⟨fun hi => verdict_of_poll h hi rfl (exec_waitGpio hs ds polarity index),
      fun hi => verdict_of_poll h hi rfl (exec_waitPin hs ds polarity index),
      fun hi hindex => verdict_of_poll h hi rfl (exec_waitIrq hs ds polarity hindex)⟩⟩

/-- Settles O28: the poll reads the pin of the index itself. -/
theorem waitGpioCompletesOrHolds : Obligations.WaitGpioCompletesOrHolds :=
  fun _ ds polarity index hs => exec_waitGpio hs ds polarity index

/-- Settles O29: the charge leaves IN_BASE as it was, so the poll reads the pin of the state before. -/
theorem waitPinCompletesOrHolds : Obligations.WaitPinCompletesOrHolds :=
  fun _ ds polarity index hs => exec_waitPin hs ds polarity index

/-- Settles O31: the poll of the Reserved source faults for every polarity and index. -/
theorem waitReservedSourceFaults : Obligations.WaitReservedSourceFaults :=
  fun _ _ polarity _ hs => waitFor_error (poll := fun _ => .error .unsupportedInstruction) hs rfl polarity

end Sys2Proof.Machine

/-! SUPPORT. PUSH and PULL past their threshold skip, with the statements about PUSH and PULL settled from that. -/

namespace Sys2Proof.Machine

/-! ## The three stages, one at a time (R120, R121) -/

/-- A transfer that ignores its threshold, or has reached it, does not skip (R120, R121). -/
theorem not_skips {flag : Bool} {count threshold : Nat} (h : flag = false ∨ threshold ≤ count) :
    ¬ (flag = true ∧ count < threshold) := by
  rintro ⟨rfl, hlt⟩
  exact h.elim nofun (Nat.not_le.mpr hlt)

/-- PUSH below its threshold looks at nothing else (R120; D5). -/
theorem execPush_skip {s : State} (hs : s.sideSetOff) (ds : Five) (block : Bool)
    (h : (active s).isrCount.val < configured s .pushThresh) :
    execPush ds true block s = .next (s.completed ds (active s).advanced) := by
  rw [execPush_off hs, if_pos ⟨rfl, h⟩]
  rfl

/-- PUSH that does not skip stalls or transfers (R120). -/
theorem execPush_noSkip {s : State} (hs : s.sideSetOff) (ds : Five) {ifFull : Bool} (block : Bool)
    (h : ifFull = false ∨ configured s .pushThresh ≤ (active s).isrCount.val) :
    execPush ds ifFull block s =
      if block = true ∧ 4 ≤ (active s).rxf.length then .next (setDelay ds s) else pushTransfer (setDelay ds s) := by
  rw [execPush_off hs, if_neg (not_skips h)]

/-- PULL below its threshold looks at nothing else (R121; D5). -/
theorem execPull_skip {s : State} (hs : s.sideSetOff) (ds : Five) (block : Bool)
    (h : (active s).osrCount.val < configured s .pullThresh) :
    execPull ds true block s = .next (s.completed ds (active s).advanced) := by
  rw [execPull_off hs, if_pos ⟨rfl, h⟩]
  rfl

/-- PULL that does not skip stalls or transfers (R121). -/
theorem execPull_noSkip {s : State} (hs : s.sideSetOff) (ds : Five) {ifEmpty : Bool} (block : Bool)
    (h : ifEmpty = false ∨ configured s .pullThresh ≤ (active s).osrCount.val) :
    execPull ds ifEmpty block s =
      if block = true ∧ (active s).txf = [] then .next (setDelay ds s) else pullTransfer (setDelay ds s) := by
  rw [execPull_off hs, if_neg (not_skips h)]

/-! ## The statements -/

/-- Settles O34: with room there is no stall either, so PUSH is its transfer. -/
theorem pushMovesIsrToRxFifo : Obligations.PushMovesIsrToRxFifo := by
  intro s ds ifFull block hs hthreshold hroom
  have hnoStall : ¬ (block = true ∧ 4 ≤ (active s).rxf.length) := fun h => Nat.not_le.mpr hroom h.2
  calc exec (.push ds ifFull block) s
      = pushTransfer (setDelay ds s) := (execPush_noSkip hs ds block hthreshold).trans (if_neg hnoStall)
    _ = _ := pushTransfer_room (s := setDelay ds s) hroom

/-- Settles O35: the skip comes before the look at the FIFO, the stall before the transfer. -/
theorem pushSkipsOrStalls : Obligations.PushSkipsOrStalls :=
  fun _ ds hs => ⟨execPush_skip hs ds, fun _ hthreshold hfull =>
    (execPush_noSkip hs ds true hthreshold).trans (if_pos ⟨rfl, hfull⟩)⟩

/-- Settles O37: a TX FIFO with a word stalls no PULL and an empty one no nonblocking PULL, so PULL is its transfer. -/
theorem pullLoadsOsr : Obligations.PullLoadsOsr := by
  intro s ds ifEmpty hs hthreshold
  refine ⟨fun block v q hword => ?_, fun hempty => ?_⟩
  · have hnoStall : ¬ (block = true ∧ (active s).txf = []) := fun h => List.cons_ne_nil v q (hword.symm.trans h.2)
    calc exec (.pull ds ifEmpty block) s
        = pullTransfer (setDelay ds s) := (execPull_noSkip hs ds block hthreshold).trans (if_neg hnoStall)
      _ = _ := pullTransfer_cons (s := setDelay ds s) hword
  · have hnoStall : ¬ (false = true ∧ (active s).txf = []) := nofun
    calc exec (.pull ds ifEmpty false) s
        = pullTransfer (setDelay ds s) := (execPull_noSkip hs ds false hthreshold).trans (if_neg hnoStall)
      _ = _ := pullTransfer_nil (s := setDelay ds s) hempty

/-- Settles O38: the skip comes before the look at the FIFO, the stall before the transfer. -/
theorem pullSkipsOrStalls : Obligations.PullSkipsOrStalls :=
  fun _ ds hs => ⟨execPull_skip hs ds, fun _ hthreshold hempty =>
    (execPull_noSkip hs ds true hthreshold).trans (if_pos ⟨rfl, hempty⟩)⟩

end Sys2Proof.Machine

/-! SUPPORT. The ranged writes SET makes with its immediate, with the statements about SET settled from that. -/

namespace Sys2Proof.Machine

/-! ## The immediate (R80) and the oversized range (R58) -/

theorem immediate_toNat (data : Five) : (immediate data).toNat = data.toNat :=
  BitVec.toNat_setWidth_of_le (by decide)

/-- Zero-extension: the bits above the five of `data` are 0 in both. -/
theorem immediate_getLsbD (data : Five) (i : Nat) : (immediate data).getLsbD i = data.getLsbD i := by
  rw [BitVec.getLsbD, immediate_toNat, BitVec.getLsbD]

theorem gpioWriteRange_oversized {count : Nat} (h : 32 < count) (base : Nat) (bits : Word) (g : Gpio) :
    gpioWriteRange base count bits g = .error (.outOfRange count) :=
  if_pos h

theorem gpioWriteEnableRange_oversized {count : Nat} (h : 32 < count) (base : Nat) (bits : Word) (g : Gpio) :
    gpioWriteEnableRange base count bits g = .error (.outOfRange count) :=
  if_pos h

/-- What SET does to the plane it writes: the pins of the range take the bits of `data`, the others keep theirs (R131,
R134). -/
theorem rangeWrite_immediate (plane : Word) (base : Nat) (data : Five) {count : Nat} (hcount : count ≤ 32) :
    (∀ i, i < count →
      (rangeWrite plane base (immediate data) count).getLsbD ((base + i) % 32) = data.getLsbD i) ∧
    ∀ p, p < 32 → (∀ i, i < count → p ≠ (base + i) % 32) →
      (rangeWrite plane base (immediate data) count).getLsbD p = plane.getLsbD p :=
  ⟨fun i hi => (rangeWrite_getLsbD_inside plane base (immediate data) hcount hi).trans (immediate_getLsbD data i),
    fun _ hp houtside => rangeWrite_getLsbD_outside plane base (immediate data) hp houtside⟩

/-! ## The statements -/

/-- Settles O42: the write reads SET_BASE and SET_COUNT after the charge, which leaves them as they were. -/
theorem setPinsWritesValuePlane : Obligations.SetPinsWritesValuePlane :=
  fun s _ data hs =>
    ⟨fun hcount => ⟨_, setPlane_off hs (gpioWriteRange_inRange hcount (setBaseIndex s) (immediate data) s.gpio),
      rangeWrite_immediate s.gpio.value (setBaseIndex s) data hcount⟩,
    fun hcount => setPlane_error hs (gpioWriteRange_oversized hcount (setBaseIndex s) (immediate data) s.gpio)⟩

/-- Settles O43, as O42 on the other plane. -/
theorem setPindirsWritesEnablePlane : Obligations.SetPindirsWritesEnablePlane :=
  fun s _ data hs =>
    ⟨fun hcount => ⟨_, setPlane_off hs (gpioWriteEnableRange_inRange hcount (setBaseIndex s) (immediate data) s.gpio),
      rangeWrite_immediate s.gpio.oe (setBaseIndex s) data hcount⟩,
    fun hcount => setPlane_error hs (gpioWriteEnableRange_oversized hcount (setBaseIndex s) (immediate data) s.gpio)⟩

/-- Settles O41: the word both write is the immediate. -/
theorem setWritesScratch : Obligations.SetWritesScratch :=
  fun _ ds data hs => ⟨immediate data, immediate_toNat data,
    setScratch_off hs (fun r => { r with x := immediate data }) ds,
    setScratch_off hs (fun r => { r with y := immediate data }) ds⟩

/-- Settles O44: the four Reserved destinations differ only in the number ENUM_MAP gives them. -/
theorem setReservedDestinationFaults : Obligations.SetReservedDestinationFaults :=
  fun _ ds _ hs => ⟨setReserved_off hs (·.rsvd3) ds, setReserved_off hs (·.rsvd5) ds,
    setReserved_off hs (·.rsvd6) ds, setReserved_off hs (·.rsvd7) ds⟩

end Sys2Proof.Machine

/-! SUPPORT. The interrupt flags, which neither a Step nor a host action writes, with the statements about them and
about the unimplemented kinds settled from that. -/

namespace Sys2Proof.Machine

/-! ## The interrupt flags (R21, R144) -/

theorem step_irq {s t : State} (h : step s = .next t) : t.irq = s.irq := by
  obtain ⟨-, hirq, -⟩ := step_sameUntouched h
  exact hirq

theorem HostEffect.irq_eq {s t : State} (h : HostEffect s t) : t.irq = s.irq := by
  cases h with
  | read | register | txPush | rxPop | pins => rfl

/-- Every run keeps the interrupt flags of the block it starts from, whatever they are. -/
theorem afterEvents_irq (es : List Event) (s : State) : (afterEvents es s).irq = s.irq :=
  afterEvents_induction (P := fun t => t.irq = s.irq)
    (fun hkept hstep => (step_irq hstep).trans hkept)
    (fun hkept hhost => hhost.irq_eq.trans hkept) es rfl

/-! ## The statements -/

/-- Settles O16: every run keeps the flags, and construction clears them. -/
theorem interruptFlagsStayClear : Obligations.InterruptFlagsStayClear :=
  fun es p lane pins => afterEvents_irq es (State.atReset p lane pins)

/-- Settles O40: the four kinds share one meaning, which reads `ds` and no other field. -/
theorem unimplementedKindsFault : Obligations.UnimplementedKindsFault := by
  intro i s hkind hs
  cases i with
  | inBits ds | outBits ds | mov ds | irq ds => exact unimplemented_off hs ds
  | _ => simp [Instr.kind] at hkind

end Sys2Proof.Machine

/-! SUPPORT. The statements about the faults of a full RX FIFO and of an oversized pin range (R155, R157), settled from
what PUSH answers past its skip and from the count check of the ranged writes. -/

namespace Sys2Proof.Machine

/-- Settles O36: a nonblocking PUSH never stalls, so past its skip it is the transfer, which faults on a full FIFO. -/
theorem pushFaultsOnFullFifo : Obligations.PushFaultsOnFullFifo := by
  intro s ds ifFull hs hthreshold hfull
  have hnoStall : ¬ (false = true ∧ 4 ≤ (active s).rxf.length) := nofun
  calc exec (.push ds ifFull false) s
      = pushTransfer (setDelay ds s) := (execPush_noSkip hs ds false hthreshold).trans (if_neg hnoStall)
    _ = _ := pushTransfer_full (s := setDelay ds s) hfull

/-- Settles O47: both ranged writes check the count before they touch a plane. -/
theorem oversizedRangedWriteFails : Obligations.OversizedRangedWriteFails :=
  fun base _ bits g hcount =>
    ⟨gpioWriteRange_oversized hcount base bits g, gpioWriteEnableRange_oversized hcount base bits g⟩

end Sys2Proof.Machine

/-! SUPPORT. The hazard of a block that waits for a flag nothing raises (R186): a held Step repeats for ever, with the
statement about it settled from that. -/

namespace Sys2Proof.Machine

/-- A fetched WAIT IRQ whose flag differs from the polarity is held: the Step leaves the block as it was (R113, R115;
D7). -/
theorem step_of_waitIrq_held {s : State} {ds index : Five} {polarity : Bool} (h : s.atFetch) (hs : s.sideSetOff)
    (hi : s.fetched = .waitIrq ds polarity index) (hindex : index.toNat < 8)
    (hflag : s.irq.getLsbD index.toNat ≠ polarity) : step s = .next s := by
  rw [step_of_atFetch h, hi, exec_waitIrq hs ds polarity hindex, if_neg hflag]

/-- Settles O33: a clear flag is not the polarity 1, so each Step is held and the next one starts from the same block. -/
theorem waitForSetFlagHoldsForever : Obligations.WaitForSetFlagHoldsForever := by
  intro s ds index n h hs hirq hi hindex
  have hflag : s.irq.getLsbD index.toNat ≠ true := by simp [hirq]
  exact run_of_step_self (step_of_waitIrq_held h hs hi hindex hflag) n

end Sys2Proof.Machine

/-! SUPPORT. The reset contents of the named fields, the halted block, the environment's pin and the accesses that have
no meaning, with the statements about them settled from that. -/

namespace Sys2Proof.Machine

/-! ## Named fields after reset (R31) -/

/-- The number a named field reads as after reset: what the source lists (R31), and 0 where it lists nothing (D13). -/
def resetValue : Config.FieldName → Nat
  | .txEmpty | .rxEmpty => 0xF
  | .clkdivInt => 1
  | .wrapTop => 0x1F
  | .inShiftdir | .outShiftdir => 1
  | .setCount => 5
  | _ => 0

/-- An admitted layout gives every field the width its reset value needs (R22). -/
theorem resetValue_lt {l : Config.FieldLayout} (h : Config.layoutOk l = true) (f : Config.FieldName) :
    resetValue f < 2 ^ (fieldPos l f).width := by
  have hfits (w : Nat) (hvalue : resetValue f < 2 ^ w) (hwidth : w ≤ (fieldPos l f).width) :=
    hvalue.trans_le (Nat.pow_le_pow_right Nat.two_pos hwidth)
  simp only [Config.layoutOk, Config.FieldLayout.groups, List.all_cons, List.all_nil, Bool.and_eq_true,
    decide_eq_true_eq] at h
  cases f with
  | rxEmpty | txEmpty => exact hfits 4 (by decide) (by simp only [fieldPos]; omega)
  | wrapTop => exact hfits 5 (by decide) (by simp only [fieldPos]; omega)
  | setCount => exact hfits 3 (by decide) (by simp only [fieldPos]; omega)
  | _ => exact hfits 1 (by decide) (by simp only [fieldPos]; omega)

theorem getField_setField_resetValue {l : Config.FieldLayout} (h : Config.layoutOk l = true) (f : Config.FieldName)
    (v : Word) : getField (setField v (fieldPos l f) (resetValue f)) (fieldPos l f) = resetValue f :=
  (getField_setField_self (layoutOk_inWord h f).2 v _).trans (Nat.mod_eq_of_lt (resetValue_lt h f))

/-- A field of an admitted layout is kept when another field of its register is set. -/
theorem getField_setField_other {l : Config.FieldLayout} (h : Config.layoutOk l = true) {n : Fin 4}
    {f g : Config.FieldName} (hreg : fieldReg n f = fieldReg n g) (hne : f ≠ g) (v : Word) (k : Nat) :
    getField (setField v (fieldPos l g) k) (fieldPos l f) = getField v (fieldPos l f) :=
  getField_setField_apart (layoutOk_inWord h f).2 (layoutOk_apart h hreg hne) v k

theorem getField_zero (p : Config.FieldPos) : getField 0 p = 0 := by
  simp [getField]

/-- A field reads its reset value in its register's reset word: the fields set after it keep it, and one that is never
set is read from the word 0. -/
theorem getField_resetWord {l : Config.FieldLayout} (h : Config.layoutOk l = true) (n : Fin 4)
    (f : Config.FieldName) : getField (resetWord l (fieldReg n f)) (fieldPos l f) = resetValue f := by
  have hset := getField_setField_resetValue h f
  have hkept (g : Config.FieldName) := getField_setField_other h (n := n) (f := f) (g := g)
  have hzero := getField_zero (fieldPos l f)
  cases f with
  | rxEmpty | clkdivInt | wrapTop | outShiftdir | setCount => exact hset _
  | txEmpty => exact (hkept .rxEmpty rfl nofun _ _).trans (hset _)
  | inShiftdir => exact (hkept .outShiftdir rfl nofun _ _).trans (hset _)
  | jmpPin => exact (hkept .wrapTop rfl nofun _ _).trans hzero
  | pushThresh | pullThresh =>
    exact (hkept .outShiftdir rfl nofun _ _).trans ((hkept .inShiftdir rfl nofun _ _).trans hzero)
  | outBase | setBase | inBase | sidesetCount => exact (hkept .setCount rfl nofun _ _).trans hzero

theorem laneField_atReset {p : Config.Params} (h : Config.layoutOk p.layout = true) (lane n : Fin 4) (pins : Gpio)
    (f : Config.FieldName) : laneField (State.atReset p lane pins) n f = resetValue f :=
  (congrArg (getField · (fieldPos p.layout f)) (bankWord_resetBank p.layout (fieldReg n f))).trans
    (getField_resetWord h n f)

/-! ## The halted block (R27, R90, R96) -/

theorem step_of_halted {s : State} {k : Fault} (h : s.halted = some k) : step s = .refused (.blockHalted k) := by
  rw [step, h]

theorem verdict_of_refused {s : State} {r : Refusal} (h : step s = .refused r) : verdict s = none := by
  rw [verdict, h]

theorem runLoop_of_halted {s : State} {k : Fault} (h : s.halted = some k) (n : Nat) : runLoop n s = (s, some k) := by
  cases n with
  | zero => rw [runLoop, h]
  | succ n => rw [runLoop, step_of_halted h, h]

/-! ## The environment's pin (R55, R59) -/

/-- A pin read after one value bit was replaced, by their numbers modulo 32. -/
theorem gpioRead_writeBit (g : Gpio) (p q : Nat) (b : Bool) :
    gpioRead q { g with value := writeBit g.value (p % 32) b } = if q % 32 = p % 32 then b else gpioRead q g :=
  writeBit_getLsbD g.value b (Nat.mod_lt p (by decide)) (Nat.mod_lt q (by decide))

/-! ## Accesses that have no meaning (R44, D15) -/

theorem not_accessOk {addr width : Nat} (h : width ≠ 4 ∨ addr % 4 ≠ 0 ∨ 0x140 < addr) :
    ¬ accessOk addr width = true := by
  simp only [accessOk, Config.lastOffset, Bool.and_eq_true, beq_iff_eq, decide_eq_true_eq]
  omega

theorem hostMemRead_refused {addr width : Nat} (h : ¬ accessOk addr width = true) (s : State) :
    hostMemRead addr width s = .refused :=
  if_neg h

theorem hostMemWrite_refused {addr width : Nat} (h : ¬ accessOk addr width = true) (v : Word) (s : State) :
    hostMemWrite addr width v s = .refused :=
  if_neg h

theorem afterEvent_of_refused {op : HostOp} {s : State} (h : hostOp op s = .refused) :
    afterEvent (.host op) s = s := by
  simp only [afterEvent, h]

/-! ## The statements -/

/-- Settles O58: the fields by their reset values in any admitted layout, the registers by the reset words of the
default one. -/
theorem resetBankContents : Obligations.ResetBankContents := by
  intro p lane n pins h
  have hfield := laneField_atReset h lane n pins
  refine ⟨hfield _, hfield _, hfield _, hfield _, hfield _, hfield _, hfield _, fun f hf => ?_, fun hdefault r => ?_⟩
  · have hzero : ∀ f ∈ [Config.FieldName.jmpPin, .pushThresh, .pullThresh, .outBase, .setBase, .inBase, .sidesetCount],
        resetValue f = 0 := by decide
    exact (hfield f).trans (hzero f hf)
  · refine (bankWord_resetBank p.layout r).trans ?_
    rw [hdefault]
    cases r with
    | sm n r => cases r <;> rfl
    | _ => rfl

/-- Settles O8: the latch is read before anything else, and a refused Step ends the run loop. -/
theorem haltedBlockHasNoStep : Obligations.HaltedBlockHasNoStep :=
  fun _ _ h => ⟨step_of_halted h, verdict_of_refused (step_of_halted h), runLoop_of_halted h⟩

/-- Settles O48: one bit of the value plane is replaced. -/
theorem environmentDrivesOnePin : Obligations.EnvironmentDrivesOnePin :=
  fun s p v => ⟨_, rfl, rfl, (gpioRead_writeBit s.gpio p p v).trans (if_pos rfl),
    fun q hq => (gpioRead_writeBit s.gpio p q v).trans (if_neg hq)⟩

/-- Settles O50: each of the three conditions alone makes the access one without a meaning. -/
theorem otherAccessesAreRefused : Obligations.OtherAccessesAreRefused := by
  intro s addr width v h
  have hbad := not_accessOk h
  have hwrite : hostOp (.memWrite addr width v) s = .refused := hostMemWrite_refused hbad v s
  exact ⟨hostMemRead_refused hbad s, hwrite, afterEvent_of_refused hwrite⟩

end Sys2Proof.Machine
